-- ==== Sys2Proof/Word.lean ====
section
/-! DEFINITION. The widths and the small closed types of the block: bytes, the counter, the step word, the
output word, the sequencing modes, the fault codes, the input pins of one step and the event they name. -/

namespace Sys2Proof

/-- One byte of the wire, or one 8-bit register. -/
abbrev Byte := BitVec 8

/-- The payload counter `cnt`, 3 bits (R24). -/
abbrev Count := BitVec 3

/-- The 14-bit step word `S` of R85. -/
abbrev StepWord := BitVec 14

/-- The output word `out_data`, six 8-bit lanes (R29, R78). -/
abbrev SampleWord := BitVec 48

/-- The sequencing state (R22): all four values of the 2-bit register, the reserved one included. -/
inductive Mode
  | hunt
  | payload
  | fault
  | reserved
  deriving DecidableEq, Repr

/-- Why the block is halted (R26, R170): all four values of the 2-bit register. -/
inductive FaultCode
  | none
  | source
  | consistency
  | protocol
  deriving DecidableEq, Repr

/-- The input pins sampled at one rising edge of `clk` (R20). -/
structure Pins where
  rst : Bool
  inFault : Bool
  inTimeout : Bool
  inValid : Bool
  inData : Byte
  deriving DecidableEq, Repr

/-- What one step takes in (R70). -/
inductive Event
  | reset
  | fault
  | protocol
  | timeout
  | byte (b : Byte)
  | idle
  deriving DecidableEq, Repr

end Sys2Proof
end

