-- ==== Sys2Proof/Config.lean ====
section
/-! DEFINITION. What the environment fixes and the spec leaves OPEN (R6, D32): named, without a value, and read by
no step. What the block itself fixes (the header table) is in Machine/HeaderTable.lean. -/

namespace Sys2Proof.Config

/-- `DEVICE_PATH`, the byte source's device identifier (R6). The spec gives no value (N4). -/
opaque devicePath : String

/-- `BAUD`, the byte source's baud rate (R6). The spec gives no value (N4). -/
opaque baud : Nat

/-- `TIMEOUT_S`, the byte source's read timeout in seconds (R6, R181). The spec gives no value (N4); the block is
only told of a timeout by the pin `in_timeout`. -/
opaque timeoutSeconds : Rat

end Sys2Proof.Config
end

