-- ==== Sys2Proof/Machine/HeaderTable.lean ====
section
/-! DEFINITION. The header table (R4, R31): a constant of the block, its three entries and the two functions of it
that every rule uses. -/

namespace Sys2Proof

/-- The header table of R4: header byte and payload length. -/
def headerTable : List (Byte × Nat) := [(0xAA, 3), (0xBB, 3), (0xCC, 5)]

/-- `LEN(h)` of R4: `none` for a byte that is no header, where the spec leaves it undefined. -/
def payloadLen (h : Byte) : Option Nat := headerTable.lookup h

/-- `IsHeader(h)` of R4. -/
def isHeader (h : Byte) : Bool := (payloadLen h).isSome

/-- `MAX_PAYLOAD` of R5, the size of the payload buffer. -/
def maxPayload : Nat := (headerTable.map Prod.snd).foldl max 0

end Sys2Proof
end

