-- ==== Sys2Proof/Syntax.lean ====
section
/-! DEFINITION. The operations of spec/opcode_table.json, one constructor per row: fifteen rows of format `step`
(30_encoding.md R85) and four of format `frame_header` (41_decoders.md R140). -/

namespace Sys2Proof

/-- One row of the opcode table with its operands. A pin or a mode bit that a row's rule ignores is no operand. -/
inductive Instr
  /-- `EV_RESET`, R200. -/
  | evReset
  /-- `FAULT_ABSORB`, R102. -/
  | faultAbsorb
  /-- `MODE_RESERVED`, R112. -/
  | modeReserved
  /-- `CONSISTENCY`, R112. -/
  | consistency
  /-- `EV_FAULT`, R110. -/
  | evFault
  /-- `EV_PROTOCOL`, R111. -/
  | evProtocol
  /-- `HUNT_TIMEOUT`, R107. -/
  | huntTimeout
  /-- `PAYLOAD_TRUNCATE`, R108. -/
  | payloadTruncate
  /-- `EV_IDLE`, R109. -/
  | evIdle
  /-- `HUNT_HEADER_AA`, R103 with `b = 0xAA`. -/
  | huntHeaderAA
  /-- `HUNT_HEADER_BB`, R103 with `b = 0xBB`. -/
  | huntHeaderBB
  /-- `HUNT_HEADER_CC`, R103 with `b = 0xCC`. -/
  | huntHeaderCC
  /-- `HUNT_NOISE`, R104, with the byte it drops. -/
  | huntNoise (b : Byte)
  /-- `PAYLOAD_CAPTURE`, R105, with the byte it stores. -/
  | payloadCapture (b : Byte)
  /-- `PAYLOAD_FINAL`, R106, with the byte it stores and decodes. -/
  | payloadFinal (b : Byte)
  /-- `HDR_SENSOR`, R141. -/
  | hdrSensor
  /-- `HDR_ACTION`, R142. -/
  | hdrAction
  /-- `HDR_PIN`, R143. -/
  | hdrPin
  /-- `HDR_DEFECT`, R144, with the byte that reached the decoder. -/
  | hdrDefect (h : Byte)
  deriving DecidableEq, Repr

end Sys2Proof
end

