-- ==== Sys2Proof/WellFormed.lean ====
section
/-! DEFINITION. Which operands a row of the opcode table admits. -/

namespace Sys2Proof

/-- A noise byte and a decode-time defect are bytes that are no header (R72, R104, R144); a payload byte may be any
value (R77); the other rows have no operand. -/
def Instr.wellFormed : Instr → Bool
  | .evReset => true
  | .faultAbsorb => true
  | .modeReserved => true
  | .consistency => true
  | .evFault => true
  | .evProtocol => true
  | .huntTimeout => true
  | .payloadTruncate => true
  | .evIdle => true
  | .huntHeaderAA => true
  | .huntHeaderBB => true
  | .huntHeaderCC => true
  | .huntNoise b => !isHeader b
  | .payloadCapture _ => true
  | .payloadFinal _ => true
  | .hdrSensor => true
  | .hdrAction => true
  | .hdrPin => true
  | .hdrDefect h => !isHeader h

end Sys2Proof
end

