-- ==== Sys2Proof/Decode.lean ====
section
/-! DEFINITION. From pins and state to the row of the opcode table that a step performs (30_encoding.md R70, R85),
from a header byte to the decoder it selects (41_decoders.md R140), and back: the encoder. -/

namespace Sys2Proof

/-! ### Events and the step word -/

/-- The event the pins name (R70): rows tried top to bottom. -/
def decodeEvent (p : Pins) : Event :=
  if p.rst then .reset
  else if p.inFault then .fault
  else if p.inTimeout && p.inValid then .protocol
  else if p.inTimeout then .timeout
  else if p.inValid then .byte p.inData
  else .idle

/-- The 2-bit encoding of `mode` (R22). -/
def Mode.bits : Mode → BitVec 2
  | .hunt => 0b00
  | .payload => 0b01
  | .fault => 0b10
  | .reserved => 0b11

/-- The mode a 2-bit value stands for (R22). -/
def Mode.ofBits (v : BitVec 2) : Mode :=
  if v = 0b00 then .hunt else if v = 0b01 then .payload else if v = 0b10 then .fault else .reserved

/-- The step word (R85): `mode` in bits 13:12, then `rst`, `in_fault`, `in_timeout`, `in_valid`, and `in_data` in
bits 7:0. -/
def stepWord (m : Mode) (p : Pins) : StepWord :=
  (m.bits ++ BitVec.ofBool p.rst ++ BitVec.ofBool p.inFault ++ BitVec.ofBool p.inTimeout ++ BitVec.ofBool p.inValid)
    ++ p.inData

/-- The field `mode` of a step word (R85). -/
def modeOfWord (S : StepWord) : Mode := Mode.ofBits (S.extractLsb' 12 2)

/-- The pin fields of a step word (R85). -/
def pinsOfWord (S : StepWord) : Pins where
  rst := S.getLsbD 11
  inFault := S.getLsbD 10
  inTimeout := S.getLsbD 9
  inValid := S.getLsbD 8
  inData := S.extractLsb' 0 8

/-! ### The table of format `step` -/

/-- `consistent(state)` of R100, on the three registers it reads. -/
def consistent (m : Mode) (hdr : Byte) (cnt : Count) : Bool :=
  match m with
  | .hunt => cnt == 0
  | .payload =>
    match payloadLen hdr with
    | some n => decide (cnt.toNat < n)
    | none => false
  | .fault => true
  | .reserved => false

/-- The extra condition of a row, on `hdr` and `cnt` (R85). -/
inductive RowCondition
  | always
  | notConsistent
  | midPayload
  | lastPayload
  deriving DecidableEq, Repr

/-- When a row's extra condition holds: `not consistent`, `cnt + 1 < LEN(hdr)`, `cnt + 1 = LEN(hdr)` (R85). -/
def RowCondition.holds (c : RowCondition) (m : Mode) (hdr : Byte) (cnt : Count) : Bool :=
  match c with
  | .always => true
  | .notConsistent => !consistent m hdr cnt
  | .midPayload =>
    match payloadLen hdr with
    | some n => decide (cnt.toNat + 1 < n)
    | none => false
  | .lastPayload =>
    match payloadLen hdr with
    | some n => cnt.toNat + 1 == n
    | none => false

/-- One row of format `step`: it matches when `S & mask = match` and its condition holds (R85). The operation may
take the byte in `S[7:0]`. -/
structure StepRow where
  mask : StepWord
  value : StepWord
  condition : RowCondition
  operation : Byte → Instr

/-- Does the row match the step word, `hdr` and `cnt` (R85)? -/
def StepRow.hits (r : StepRow) (S : StepWord) (hdr : Byte) (cnt : Count) : Bool :=
  S &&& r.mask == r.value && r.condition.holds (modeOfWord S) hdr cnt

/-- Rows 1 to 6 of R85: reset, the halted block, and the three causes of a fault. -/
def stepRowsResetAndFaults : List StepRow := [
  ⟨0x0800, 0x0800, .always, fun _ => .evReset⟩,
  ⟨0x3800, 0x2000, .always, fun _ => .faultAbsorb⟩,
  ⟨0x3800, 0x3000, .always, fun _ => .modeReserved⟩,
  ⟨0x2800, 0x0000, .notConsistent, fun _ => .consistency⟩,
  ⟨0x2C00, 0x0400, .always, fun _ => .evFault⟩,
  ⟨0x2F00, 0x0300, .always, fun _ => .evProtocol⟩]

/-- Rows 7 to 9 of R85: timeouts and the idle step. -/
def stepRowsNoByte : List StepRow := [
  ⟨0x3F00, 0x0200, .always, fun _ => .huntTimeout⟩,
  ⟨0x3F00, 0x1200, .always, fun _ => .payloadTruncate⟩,
  ⟨0x2F00, 0x0000, .always, fun _ => .evIdle⟩]

/-- Rows 10 to 15 of R85: an offered byte. -/
def stepRowsByte : List StepRow := [
  ⟨0x3FFF, 0x01AA, .always, fun _ => .huntHeaderAA⟩,
  ⟨0x3FFF, 0x01BB, .always, fun _ => .huntHeaderBB⟩,
  ⟨0x3FFF, 0x01CC, .always, fun _ => .huntHeaderCC⟩,
  ⟨0x3F00, 0x0100, .always, fun b => .huntNoise b⟩,
  ⟨0x3F00, 0x1100, .midPayload, fun b => .payloadCapture b⟩,
  ⟨0x3F00, 0x1100, .lastPayload, fun b => .payloadFinal b⟩]

/-- The rows of format `step` in table order, which is the priority of R100. -/
def stepTable : List StepRow := stepRowsResetAndFaults ++ stepRowsNoByte ++ stepRowsByte

/-- The first row that matches, with its operand (R85). -/
def decodeStep (S : StepWord) (hdr : Byte) (cnt : Count) : Option Instr :=
  (stepTable.find? (fun r => r.hits S hdr cnt)).map (fun r => r.operation (S.extractLsb' 0 8))

/-! ### The table of format `frame_header` -/

/-- One row of format `frame_header`, over the byte in `hdr` (R85, R140). -/
structure HeaderRow where
  mask : Byte
  value : Byte
  operation : Byte → Instr

/-- The rows of format `frame_header` in table order. The condition of `HDR_DEFECT`, that `hdr` is no header, is what
the three rows before it leave. -/
def frameHeaderTable : List HeaderRow := [
  ⟨0xFF, 0xAA, fun _ => .hdrSensor⟩,
  ⟨0xFF, 0xBB, fun _ => .hdrAction⟩,
  ⟨0xFF, 0xCC, fun _ => .hdrPin⟩,
  ⟨0x00, 0x00, fun h => .hdrDefect h⟩]

/-- The decoder row a header byte selects (R140). -/
def decodeHeader (h : Byte) : Option Instr :=
  (frameHeaderTable.find? (fun r => h &&& r.mask == r.value)).map (fun r => r.operation h)

/-! ### Codes: what an operation is decoded from -/

/-- What a row of the table is matched against: a step word with the registers `hdr` and `cnt` that the row
conditions read, or the header byte that reaches the decoder (R85). -/
inductive Code
  | step (S : StepWord) (hdr : Byte) (cnt : Count)
  | header (h : Byte)
  deriving DecidableEq, Repr

/-- Why bits are no operation of the table. -/
inductive DecodeError
  /-- The table has no format of that many bits. -/
  | noSuchFormat
  /-- The number does not fit the format's width: 14 bits for a step word, 8 for a header byte. -/
  | tooWide
  /-- No row of the table matches (R85 says this never happens). -/
  | noRow
  deriving DecidableEq, Repr

/-- The operation a code stands for. -/
def decode (c : Code) : Except DecodeError Instr :=
  match c with
  | .step S hdr cnt =>
    match decodeStep S hdr cnt with
    | some i => .ok i
    | none => .error .noRow
  | .header h =>
    match decodeHeader h with
    | some i => .ok i
    | none => .error .noRow

/-- The value of `hdr` beside a table word, which gives only `S`: a header of the table (log entry 4). -/
def tableWordHdr : Byte := 0xAA

/-- The value of `cnt` beside a table word (log entry 4). -/
def tableWordCnt : Count := 0

/-- The code that a number of the table's width stands for: 8 bits for format `frame_header`, 14 bits in two bytes
for format `step`, which gives only `S` and is read in a consistent state (log entry 4). -/
def codeOfTableWord (nbits w : Nat) : Except DecodeError Code :=
  if nbits ≤ 8 then
    if w < 2 ^ 8 then .ok (.header (BitVec.ofNat 8 w)) else .error .tooWide
  else if nbits ≤ 16 then
    if w < 2 ^ 14 then .ok (.step (BitVec.ofNat 14 w) tableWordHdr tableWordCnt) else .error .tooWide
  else .error .noSuchFormat

/-- The instruction the decoder reads from a table word, `none` where it refuses. -/
def decodeTableWord (nbits w : Nat) : Option Instr :=
  match codeOfTableWord nbits w with
  | .ok c => (decode c).toOption
  | .error _ => none

/-! ### The encoder -/

/-- A step word of a row whose operand is the byte `b`: the row's `match` value with `b` in `S[7:0]` (R85). -/
def byteWord (value : StepWord) (b : Byte) : StepWord := value ||| b.setWidth 14

/-- One code of each operation, don't-care bits 0, written from the rows of R85: `CONSISTENCY` as HUNT with
`cnt = 1`; `PAYLOAD_CAPTURE` at the first and `PAYLOAD_FINAL` at the last payload byte of a 0xAA frame. -/
def encode : Instr → Code
  | .evReset => .step 0x0800 0 0
  | .faultAbsorb => .step 0x2000 0 0
  | .modeReserved => .step 0x3000 0 0
  | .consistency => .step 0x0000 0 1
  | .evFault => .step 0x0400 0 0
  | .evProtocol => .step 0x0300 0 0
  | .huntTimeout => .step 0x0200 0 0
  | .payloadTruncate => .step 0x1200 0xAA 0
  | .evIdle => .step 0x0000 0 0
  | .huntHeaderAA => .step 0x01AA 0 0
  | .huntHeaderBB => .step 0x01BB 0 0
  | .huntHeaderCC => .step 0x01CC 0 0
  | .huntNoise b => .step (byteWord 0x0100 b) 0 0
  | .payloadCapture b => .step (byteWord 0x1100 b) 0xAA 0
  | .payloadFinal b => .step (byteWord 0x1100 b) 0xAA 2
  | .hdrSensor => .header 0xAA
  | .hdrAction => .header 0xBB
  | .hdrPin => .header 0xCC
  | .hdrDefect h => .header h

end Sys2Proof
end

