-- ==== Sys2Proof/Machine/State.lean ====
section
/-! DEFINITION. The state of the block (10_state.md R22 to R30) with the environment's coming pins, the state after
reset, and the reasons a step can stop. -/

namespace Sys2Proof.Machine

/-- The architectural state of 10_state.md section 2, and `input`, the pins the environment will drive at the coming
edges, the next first (R58 a; the model's own field, log entry 2). -/
structure State where
  /-- The sequencing state (R22). -/
  mode : Mode
  /-- The header byte of the frame being read (R23). -/
  hdr : Byte
  /-- The number of payload bytes captured (R24). -/
  cnt : Count
  /-- The payload buffer (R25). -/
  pbuf : Vector Byte 5
  /-- Why the block is in FAULT mode (R26). -/
  faultCode : FaultCode
  /-- A sample is shown (R27). -/
  outValid : Bool
  /-- The kind tag of the sample shown (R28). -/
  outHeader : Byte
  /-- The sample shown (R29). -/
  outData : SampleWord
  /-- A frame attempt ended without a frame (R30). -/
  outNoframe : Bool
  /-- The environment's coming pins. -/
  input : List Pins
  deriving DecidableEq, Repr

/-- The state after a reset that found `hdr` and the buffer as given: R200 leaves these two as they were, and after
power-up they may be anything (R23, R25). -/
def State.resetWith (hdr : Byte) (pbuf : Vector Byte 5) (input : List Pins) : State where
  mode := .hunt
  hdr := hdr
  cnt := 0
  pbuf := pbuf
  faultCode := .none
  outValid := false
  outHeader := 0x00
  outData := 0
  outNoframe := false
  input := input

/-- The machine right after reset (R200). DESIGN CHOICE, unsafe (log entry 1): `hdr` and the buffer, which the spec
leaves unspecified, hold zeros. Nothing is queued at the pins. -/
def State.reset : State := State.resetWith 0x00 (Vector.replicate 5 0x00) []

/-- Why the machine would stop. The spec's step function is total (R100): its own faults are next states in FAULT
mode (R176), not this. -/
inductive Fault
  /-- No row of the opcode table matches the step. Raised by `step` only, and never reached, since the table is
  complete (R85). Safe: the machine stops. -/
  | noRow
  deriving DecidableEq, Repr

/-- Why the model would refuse an instruction. -/
inductive Refusal
  /-- An instruction without a meaning. Raised by no arm of `exec`: every row has its meaning. Safe: the machine
  stops. -/
  | notModelled (mnemonic : String)
  deriving DecidableEq, Repr

end Sys2Proof.Machine
end

