-- ==== Sys2Proof/Machine/Flags.lean ====
section
/-! DEFINITION. The flags and the output registers: `out_valid`, `out_noframe`, `fault_code` (R35), what writes them,
and the output ports, which show them (R37). -/

namespace Sys2Proof

/-- The 2-bit value of a fault code, as driven on the port (R170). -/
def FaultCode.bits : FaultCode → BitVec 2
  | .none => 0
  | .source => 1
  | .consistency => 2
  | .protocol => 3

end Sys2Proof

namespace Sys2Proof.Machine

/-- Output clear, done by every step before its arm runs (R101). -/
def State.clearOutputs (s : State) : State :=
  { s with outValid := false, outNoframe := false, outHeader := 0x00, outData := 0 }

/-- `emit(h, d)` of 00_scope.md section 5: show the sample `d` of kind `h` (R106, R140). -/
def State.emit (h : Byte) (d : SampleWord) (s : State) : State :=
  { s with outValid := true, outHeader := h, outData := d }

/-- `noframe()` of 00_scope.md section 5: this frame attempt ended without a frame (R107, R108). -/
def State.noframe (s : State) : State := { s with outNoframe := true }

/-- The flag `fault_code ≠ 0` of R35. -/
def State.faulted (s : State) : Bool := s.faultCode != .none

/-- The output ports of R20. -/
structure OutPorts where
  outValid : BitVec 1
  outHeader : Byte
  outData : SampleWord
  outNoframe : BitVec 1
  faultCode : BitVec 2
  deriving DecidableEq, Repr

/-- What the ports show between two edges: the registers of the same name (R37). -/
def State.ports (s : State) : OutPorts where
  outValid := BitVec.ofBool s.outValid
  outHeader := s.outHeader
  outData := s.outData
  outNoframe := BitVec.ofBool s.outNoframe
  faultCode := s.faultCode.bits

end Sys2Proof.Machine
end

