-- ==== Sys2Proof/Machine/Ops.lean ====
section
/-! DEFINITION. The shared operations over the registers: sampling the pins, the payload buffer, the sequencing
moves of the framer, fault entry (60_exceptions.md R176) and reset, its only exit (R177, R200). -/

namespace Sys2Proof.Machine

/-! ### The input pins -/

/-- The pins when the environment drives none of them: no reset, fault, timeout or byte (the event IDLE, R70). -/
def idlePins : Pins where
  rst := false
  inFault := false
  inTimeout := false
  inValid := false
  inData := 0x00

/-- The pins sampled at this edge (R208). DESIGN CHOICE, unsafe (log entry 3): with nothing queued the environment
drives no pin. -/
def State.pins (s : State) : Pins := s.input.headD idlePins

/-- The pins of this edge are consumed: the environment goes on to the next (R57, R58). -/
def State.consumePins (s : State) : State := { s with input := s.input.tail }

/-- What the opcode table is matched against at this edge: the step word of mode and pins, and the two registers the
row conditions read (R85). -/
def State.code (s : State) : Code := .step (stepWord s.mode s.pins) s.hdr s.cnt

/-! ### The payload buffer -/

/-- `PBufWrite(i, b)` (R51); `none` for an index above 4. -/
def State.pbufWrite (i : Count) (b : Byte) (s : State) : Option State :=
  if h : i.toNat < 5 then some { s with pbuf := s.pbuf.set i.toNat b h } else none

/-- `PBufRead(i)` (R51); `none` for an index above 4. -/
def State.pbufRead (i : Count) (s : State) : Option Byte := s.pbuf[i.toNat]?

/-! ### The sequencing moves of the framer -/

/-- A header is accepted (R103): `hdr <- b; cnt <- 0; mode <- PAYLOAD`. -/
def State.acceptHeader (b : Byte) (s : State) : State := { s with hdr := b, cnt := 0, mode := .payload }

/-- One more payload byte is in (R105): `cnt <- cnt + 1` on 3 bits. -/
def State.countByte (s : State) : State := { s with cnt := s.cnt + 1 }

/-- The frame is over or dropped (R106, R108): `mode <- HUNT; cnt <- 0`. -/
def State.toHunt (s : State) : State := { s with mode := .hunt, cnt := 0 }

/-! ### Fault entry and its exit -/

/-- `raise Fault(code)` (R176): the code and the mode are written; the output registers stay as R101 cleared them;
`hdr`, `cnt` and the buffer are frozen. -/
def State.raiseFault (code : FaultCode) (s : State) : State := { s with faultCode := code, mode := .fault }

/-- The register writes of RESET (R200), the only exit from FAULT mode (R177): `hdr` and the buffer are not
written. -/
def State.resetRegisters (s : State) : State :=
  { s with mode := .hunt, cnt := 0, faultCode := .none, outValid := false, outHeader := 0x00, outData := 0,
           outNoframe := false }

end Sys2Proof.Machine
end

