-- ==== Sys2Proof/Machine/Operands.lean ====
section
/-! DEFINITION. The payload's fields and the three decoders as functions of bytes (41_decoders.md R140 to R149,
20_memory.md R53, 30_encoding.md R73 to R81), and the views a consumer takes of a sample (R146 to R148). -/

namespace Sys2Proof.Machine

/-! ### Primitives of 00_scope.md section 5 -/

/-- `nz(v)` of R8: 1 if `v` is not zero. -/
def nz (v : Byte) : BitVec 1 := BitVec.ofBool (v != 0)

/-- `zext_8` of one bit (R78). -/
def zext8 (b : BitVec 1) : Byte := b.setWidth 8

/-- Bit `i` of a byte as a 1-bit value (R7). -/
def bitOf (v : Byte) (i : Nat) : BitVec 1 := BitVec.ofBool (v.getLsbD i)

/-- `le32(b0, b1, b2, b3)` of R53: the first byte received is the least significant. -/
def le32 (b0 b1 b2 b3 : Byte) : BitVec 32 := b3 ++ b2 ++ b1 ++ b0

/-- Six lanes as one output word, lane 0 least significant (R78). -/
def lanes (l0 l1 l2 l3 l4 l5 : Byte) : SampleWord := l5 ++ l4 ++ l3 ++ l2 ++ l1 ++ l0

/-- Lane `k` of an output word (R78). -/
def lane (d : SampleWord) (k : Nat) : Byte := d.extractLsb' (8 * k) 8

/-! ### The three decoders -/

/-- DECODE-SENSOR (R141, R79): `lightBits`, `collisionByte`, `capacitiveByte`. -/
def decodeSensor (lb c cap : Byte) : SampleWord :=
  lanes (zext8 (bitOf lb 0)) (zext8 (bitOf lb 1)) c (zext8 (bitOf lb 2)) (zext8 (bitOf lb 3)) cap

/-- DECODE-ACTION (R142, R80): `collisionByte`, `driveByte`, `servoByte`. -/
def decodeAction (c d s : Byte) : SampleWord :=
  lanes (zext8 (nz (s &&& 0x10))) (zext8 (nz (d &&& 0x01))) c (zext8 (nz (d &&& 0x10))) (zext8 (nz (s &&& 0x01))) 0x00

/-- DECODE-PIN (R143, R81): `pinNumber` and the four voltage bytes in arrival order. -/
def decodePin (pin v0 v1 v2 v3 : Byte) : SampleWord := (0x00 : Byte) ++ le32 v0 v1 v2 v3 ++ pin

/-- `Decode(h, p)` of R140: the kind tag and the sample of a payload buffer; `none` is the defect of R144. -/
def decodeFrame (h : Byte) (p : Vector Byte 5) : Option (Byte × SampleWord) :=
  match decodeHeader h with
  | some .hdrSensor => some (0xAA, decodeSensor p[0] p[1] p[2])
  | some .hdrAction => some (0xBB, decodeAction p[0] p[1] p[2])
  | some .hdrPin => some (0xCC, decodePin p[0] p[1] p[2] p[3] p[4])
  | _ => none

/-! ### A consumer's views of a sample -/

/-- The six slots of a SensorSnapshot in the source's order: slot `i` is lane `i` (R147). -/
def sensorSlots (d : SampleWord) : List Byte := [lane d 0, lane d 1, lane d 2, lane d 3, lane d 4, lane d 5]

/-- The five slots of an ActionSnapshot in the source's order: slot `i` is lane `i` (R147). -/
def actionSlots (d : SampleWord) : List Byte := [lane d 0, lane d 1, lane d 2, lane d 3, lane d 4]

/-- The boolean view of an ActionSnapshot: a slot is true when its lane is not zero (R146). -/
def actionBooleans (d : SampleWord) : List Bool := (actionSlots d).map (fun b => b != 0)

/-- `pinNumber` of a PinReading (R147). -/
def pinNumber (d : SampleWord) : Byte := lane d 0

/-- `voltage` of a PinReading, the binary32 pattern `out_data[39:8]` (R81, R147). -/
def pinVoltage (d : SampleWord) : BitVec 32 := d.extractLsb' 8 32

/-- What a binary32 pattern is, for a consumer that reads it as a number (R148). PRESUMED: the spec marks this layout
as general knowledge (G2, log entry 13). -/
inductive VoltageClass
  | zero
  | subnormal
  | normal
  | infinity
  | quietNaN
  | signallingNaN
  deriving DecidableEq, Repr

/-- The sign bit of a binary32 pattern, bit 31 (R148). -/
def voltageSign (v : BitVec 32) : Bool := v.getLsbD 31

/-- The biased exponent of a binary32 pattern, bits 30:23 (R148). -/
def voltageExponent (v : BitVec 32) : BitVec 8 := v.extractLsb' 23 8

/-- The fraction of a binary32 pattern, bits 22:0 (R148). -/
def voltageFraction (v : BitVec 32) : BitVec 23 := v.extractLsb' 0 23

/-- The class of a binary32 pattern by its exponent and fraction (R148). -/
def voltageClass (v : BitVec 32) : VoltageClass :=
  if voltageExponent v = 0xFF then
    if voltageFraction v = 0 then .infinity else if v.getLsbD 22 then .quietNaN else .signallingNaN
  else if voltageExponent v = 0 then
    if voltageFraction v = 0 then .zero else .subnormal
  else .normal

end Sys2Proof.Machine
end

