-- ==== Sys2Proof/Machine/Decoders.lean ====
section
/-! DEFINITION. The meanings of the rows of format `frame_header`: the decoder as an operation on the state
(41_decoders.md R140 to R144). A decoder runs inside a step that has already cleared the outputs (R101) and stored the
last payload byte (R51), so it writes the sample registers and nothing else (log entry 6). -/

namespace Sys2Proof.Machine

/-- `HDR_SENSOR` (R141): show the SensorSnapshot of the buffer. -/
def execHdrSensor (s : State) : Host.Outcome State Fault Refusal :=
  .next (s.emit 0xAA (decodeSensor s.pbuf[0] s.pbuf[1] s.pbuf[2]))

/-- `HDR_ACTION` (R142): show the ActionSnapshot of the buffer. -/
def execHdrAction (s : State) : Host.Outcome State Fault Refusal :=
  .next (s.emit 0xBB (decodeAction s.pbuf[0] s.pbuf[1] s.pbuf[2]))

/-- `HDR_PIN` (R143): show the PinReading of the buffer. -/
def execHdrPin (s : State) : Host.Outcome State Fault Refusal :=
  .next (s.emit 0xCC (decodePin s.pbuf[0] s.pbuf[1] s.pbuf[2] s.pbuf[3] s.pbuf[4]))

/-- `HDR_DEFECT` (R144): a header outside the table raises CONSISTENCY; no sample. -/
def execHdrDefect (_h : Byte) (s : State) : Host.Outcome State Fault Refusal := .next (s.raiseFault .consistency)

end Sys2Proof.Machine
end

