-- ==== Sys2Proof/Machine/Faults.lean ====
section
/-! DEFINITION. The meanings of the rows that take a fault or absorb an event in FAULT mode (40_framer.md R102, R110
to R112; 60_exceptions.md). Each begins with the output clear of R101. -/

namespace Sys2Proof.Machine

/-- `FAULT_ABSORB` (R102): rule R101 only. -/
def execFaultAbsorb (s : State) : Host.Outcome State Fault Refusal := .next s.clearOutputs

/-- `MODE_RESERVED` (R112): the reserved mode raises CONSISTENCY. -/
def execModeReserved (s : State) : Host.Outcome State Fault Refusal := .next (s.clearOutputs.raiseFault .consistency)

/-- `CONSISTENCY` (R112): a state that breaks an invariant raises CONSISTENCY. -/
def execConsistency (s : State) : Host.Outcome State Fault Refusal := .next (s.clearOutputs.raiseFault .consistency)

/-- `EV_FAULT` (R110): the byte source's fault raises SOURCE. -/
def execEvFault (s : State) : Host.Outcome State Fault Refusal := .next (s.clearOutputs.raiseFault .source)

/-- `EV_PROTOCOL` (R111): a byte and a timeout together raise PROTOCOL. -/
def execEvProtocol (s : State) : Host.Outcome State Fault Refusal := .next (s.clearOutputs.raiseFault .protocol)

end Sys2Proof.Machine
end

