-- ==== Sys2Proof/Machine/Framer.lean ====
section
/-! DEFINITION. The meanings of the framer's rows: header scan and payload reader (40_framer.md R103 to R109). Each
begins with the output clear of R101. -/

namespace Sys2Proof.Machine

/-- `HUNT_HEADER_AA` (R103) with `b = 0xAA`. -/
def execHuntHeaderAA (s : State) : Host.Outcome State Fault Refusal := .next (s.clearOutputs.acceptHeader 0xAA)

/-- `HUNT_HEADER_BB` (R103) with `b = 0xBB`. -/
def execHuntHeaderBB (s : State) : Host.Outcome State Fault Refusal := .next (s.clearOutputs.acceptHeader 0xBB)

/-- `HUNT_HEADER_CC` (R103) with `b = 0xCC`. -/
def execHuntHeaderCC (s : State) : Host.Outcome State Fault Refusal := .next (s.clearOutputs.acceptHeader 0xCC)

/-- `HUNT_NOISE` (R104): rule R101 only; the byte is dropped. -/
def execHuntNoise (_b : Byte) (s : State) : Host.Outcome State Fault Refusal := .next s.clearOutputs

/-- `HUNT_TIMEOUT` (R107): NoFrame, nothing else. -/
def execHuntTimeout (s : State) : Host.Outcome State Fault Refusal := .next s.clearOutputs.noframe

/-- `PAYLOAD_TRUNCATE` (R108): NoFrame, and the partial frame is dropped. -/
def execPayloadTruncate (s : State) : Host.Outcome State Fault Refusal := .next s.clearOutputs.noframe.toHunt

/-- `EV_IDLE` (R109): rule R101 only. -/
def execEvIdle (s : State) : Host.Outcome State Fault Refusal := .next s.clearOutputs

/-- `PAYLOAD_CAPTURE` (R105): the byte goes to `pbuf[cnt]` and is counted. A write above index 4, which no reachable
state makes, raises CONSISTENCY (R51). -/
def execPayloadCapture (b : Byte) (s : State) : Host.Outcome State Fault Refusal :=
  match s.clearOutputs.pbufWrite s.cnt b with
  | some t => .next t.countByte
  | none => .next (s.clearOutputs.raiseFault .consistency)

/-- `PAYLOAD_FINAL` (R106): the byte goes to `pbuf[cnt]`, the buffer with it in place is decoded in the same step
(R51, R207), the sample is shown and the block hunts again. A header outside the table (R144) or a write above
index 4 (R51), which no reachable state makes, raises CONSISTENCY with the registers frozen (R176). -/
def execPayloadFinal (b : Byte) (s : State) : Host.Outcome State Fault Refusal :=
  match s.clearOutputs.pbufWrite s.cnt b with
  | some t =>
    match decodeFrame t.hdr t.pbuf with
    | some (h, d) => .next (t.emit h d).toHunt
    | none => .next (s.clearOutputs.raiseFault .consistency)
  | none => .next (s.clearOutputs.raiseFault .consistency)

end Sys2Proof.Machine
end

