-- ==== Sys2Proof/Machine/Reset.lean ====
section
/-! DEFINITION. The meaning of the row EV_RESET (70_reset_and_hazards.md R200, R201). -/

namespace Sys2Proof.Machine

/-- `EV_RESET` (R200): every register but `hdr` and the buffer gets its reset value; the other pins are ignored
(R201). -/
def execEvReset (s : State) : Host.Outcome State Fault Refusal := .next s.resetRegisters

end Sys2Proof.Machine
end

