-- ==== Sys2Proof/Machine/Dispatch.lean ====
section
/-! DEFINITION. One arm per row of the opcode table. -/

namespace Sys2Proof.Machine

def exec (i : Instr) (s : State) : Host.Outcome State Fault Refusal :=
  match i with
  | .evReset => Sys2Proof.Machine.execEvReset s
  | .faultAbsorb => Sys2Proof.Machine.execFaultAbsorb s
  | .modeReserved => Sys2Proof.Machine.execModeReserved s
  | .consistency => Sys2Proof.Machine.execConsistency s
  | .evFault => Sys2Proof.Machine.execEvFault s
  | .evProtocol => Sys2Proof.Machine.execEvProtocol s
  | .huntTimeout => Sys2Proof.Machine.execHuntTimeout s
  | .payloadTruncate => Sys2Proof.Machine.execPayloadTruncate s
  | .evIdle => Sys2Proof.Machine.execEvIdle s
  | .huntHeaderAA => Sys2Proof.Machine.execHuntHeaderAA s
  | .huntHeaderBB => Sys2Proof.Machine.execHuntHeaderBB s
  | .huntHeaderCC => Sys2Proof.Machine.execHuntHeaderCC s
  | .huntNoise b => Sys2Proof.Machine.execHuntNoise b s
  | .payloadCapture b => Sys2Proof.Machine.execPayloadCapture b s
  | .payloadFinal b => Sys2Proof.Machine.execPayloadFinal b s
  | .hdrSensor => Sys2Proof.Machine.execHdrSensor s
  | .hdrAction => Sys2Proof.Machine.execHdrAction s
  | .hdrPin => Sys2Proof.Machine.execHdrPin s
  | .hdrDefect h => Sys2Proof.Machine.execHdrDefect h s

end Sys2Proof.Machine
end

