-- ==== Sys2Proof/Machine/Fetch.lean ====
section
/-! DEFINITION. Placing an operation so that the next step performs it: the block fetches from its pins, its mode and
the registers `hdr` and `cnt`, not from a memory (R85, log entry 5). -/

namespace Sys2Proof.Machine

/-- Set the registers and the next pins to a step word: `mode` and the pins as its fields say; in HUNT `cnt` to 0 and
in PAYLOAD `hdr` and `cnt` to the pair a table word is decoded with, so that the state is consistent (R100). -/
def State.placeStepWord (S : StepWord) (s : State) : State :=
  let t := { s with mode := modeOfWord S, input := pinsOfWord S :: s.input }
  match modeOfWord S with
  | .hunt => { t with cnt := 0 }
  | .payload => { t with hdr := tableWordHdr, cnt := tableWordCnt }
  | .fault => t
  | .reserved => t

/-- The pins that offer the byte `b` (the event BYTE, R70). -/
def bytePins (b : Byte) : Pins where
  rst := false
  inFault := false
  inTimeout := false
  inValid := true
  inData := b

/-- Set the registers and the next pins so that the header byte `h` reaches the decoder in the next step: PAYLOAD with
`hdr = h` and `cnt = LEN(h) - 1`, and a byte offered that is the one the buffer holds there already (R106, R140). For
a byte that is no header `cnt` is 0, and the check of R112 takes the place of the defect of R144. -/
def State.placeHeaderByte (h : Byte) (s : State) : State :=
  let n := (payloadLen h).getD 1 - 1
  { s with mode := .payload, hdr := h, cnt := BitVec.ofNat 3 n, input := bytePins (s.pbuf[n]?.getD 0) :: s.input }

end Sys2Proof.Machine
end

