-- ==== Sys2Proof/Machine/Step.lean ====
section
/-! DEFINITION. One step: sample the pins, find the row of the opcode table, perform it (40_framer.md R100, R85). -/

namespace Sys2Proof.Machine

/-- One rising edge of `clk` (R21, R100). -/
def step (s : State) : Host.Outcome State Fault Refusal :=
  match decode s.code with
  | .ok i => exec i s.consumePins
  | .error _ => .fault .noRow

/-- `s` with the table word's operation placed where the next step finds it (log entry 5). -/
def State.withFetchWord (s : State) (nbits w : Nat) : State :=
  match codeOfTableWord nbits w with
  | .ok (.step S _ _) => s.placeStepWord S
  | .ok (.header h) => s.placeHeaderByte h
  | .error _ => s

end Sys2Proof.Machine
end

