-- ==== Sys2Proof/Machine/Reference.lean ====
section
/-! DEFINITION. The step function as 40_framer.md R100 writes it: one chain of tests on the event and the mode, with no
opcode table. A statement relates it to `step`, which goes through the table of R85. -/

namespace Sys2Proof.Machine

/-- `Decode` of R140 as its own case list by header byte. -/
def decodeByHeader (h : Byte) (p : Vector Byte 5) : SampleWord :=
  if h = 0xAA then decodeSensor p[0] p[1] p[2]
  else if h = 0xBB then decodeAction p[0] p[1] p[2]
  else decodePin p[0] p[1] p[2] p[3] p[4]

/-- `consistent(state)` in the words of R100. -/
abbrev State.Consistent (s : State) : Prop :=
  s.mode ≠ .reserved ∧ (s.mode = .hunt → s.cnt = 0) ∧
    (s.mode = .payload → isHeader s.hdr ∧ s.cnt.toNat < (payloadLen s.hdr).getD 0)

/-- The last arm of R100, in a consistent state in HUNT or PAYLOAD mode, with the outputs already cleared. -/
def dispatchR100 (ev : Event) (s : State) : State :=
  match ev with
  | .reset => s
  | .fault => s.raiseFault .source
  | .protocol => s.raiseFault .protocol
  | .timeout => if s.mode = .hunt then s.noframe else { s.noframe with mode := .hunt, cnt := 0 }
  | .idle => s
  | .byte b =>
    if s.mode = .hunt then
      if isHeader b then { s with hdr := b, cnt := 0, mode := .payload } else s
    else
      let pbuf' := s.pbuf.setIfInBounds s.cnt.toNat b
      if s.cnt.toNat + 1 < (payloadLen s.hdr).getD 0 then { s with pbuf := pbuf', cnt := s.cnt + 1 }
      else
        { s with pbuf := pbuf', outValid := true, outHeader := s.hdr, outData := decodeByHeader s.hdr pbuf',
                 mode := .hunt, cnt := 0 }

/-- `step(state, pins)` of R100. -/
def stepR100 (s : State) (p : Pins) : State :=
  let s₁ := s.clearOutputs
  if decodeEvent p = .reset then s₁.resetRegisters
  else if s.mode = .fault then s₁
  else if ¬ s.Consistent then s₁.raiseFault .consistency
  else dispatchR100 (decodeEvent p) s₁

end Sys2Proof.Machine
end

