-- ==== Sys2Proof/Machine/Stream.lean ====
section
/-! DEFINITION. The stream notation of 30_encoding.md R84: tokens, the pins each stands for, and the frame macros. It is
the environment's notation for what it drives; no step reads it. -/

namespace Sys2Proof.Machine

/-- One token of a stream, one step (R84). The textual spelling is not modelled (log entry 15). -/
inductive Token
  /-- `NN`. -/
  | byte (b : Byte)
  /-- `.` -/
  | idle
  /-- `T`, timeout or EOF. -/
  | timeout
  /-- `F`. -/
  | fault
  /-- `P`. -/
  | protocol
  /-- `R`. -/
  | reset
  deriving DecidableEq, Repr

/-- The pins a token stands for (R84). -/
def tokenPins : Token → Pins
  | .byte b => bytePins b
  | .idle => idlePins
  | .timeout => { idlePins with inTimeout := true }
  | .fault => { idlePins with inFault := true }
  | .protocol => { idlePins with inTimeout := true, inValid := true }
  | .reset => { idlePins with rst := true }

/-- `SENSOR(lb, c, cap)` (R84). -/
def sensorFrame (lb c cap : Byte) : List Token := [.byte 0xAA, .byte lb, .byte c, .byte cap]

/-- `ACTION(c, d, s)` (R84). -/
def actionFrame (c d s : Byte) : List Token := [.byte 0xBB, .byte c, .byte d, .byte s]

/-- `PIN(p, w)` with `w` a 32-bit pattern, least significant byte first (R84). -/
def pinFrame (p : Byte) (w : BitVec 32) : List Token :=
  [.byte 0xCC, .byte p, .byte (w.extractLsb' 0 8), .byte (w.extractLsb' 8 8), .byte (w.extractLsb' 16 8),
    .byte (w.extractLsb' 24 8)]

/-- The whole number nearest to `n / d`, ties to even. -/
def roundHalfEven (n d : Nat) : Nat :=
  let q := n / d
  let r := n % d
  if 2 * r < d then q else if d < 2 * r then q + 1 else if q % 2 = 0 then q else q + 1

/-- `n / d * 2 ^ k` rounded to a whole number, ties to even. -/
def roundScaled (n d : Nat) (k : Int) : Nat :=
  roundHalfEven (n * 2 ^ k.toNat) (d * 2 ^ (-k).toNat)

/-- The exponent `e` with `2 ^ e ≤ n / d < 2 ^ (e + 1)`, for positive `n` and `d`. -/
def floorLog2 (n d : Nat) : Int :=
  let k : Int := (n.log2 : Int) - d.log2
  if d * 2 ^ k.toNat ≤ n * 2 ^ (-k).toNat then k else k - 1

/-- The binary32 pattern nearest to `num / den`, ties to even, for `PINF` (R84). PRESUMED: IEEE-754 rounding, which
the spec marks as general knowledge (G4), with zero as +0 and values beyond the largest finite one as infinities
(log entry 14). -/
def nearestBinary32 (num : Int) (den : Nat) : BitVec 32 :=
  let n := num.natAbs
  let sign := BitVec.ofBool (num < 0)
  let magnitude :=
    if n = 0 then 0
    else
      let e := max (floorLog2 n den) (-126)
      (e + 126).toNat * 2 ^ 23 + roundScaled n den (23 - e)
  sign ++ BitVec.ofNat 31 (min magnitude (255 * 2 ^ 23))

/-- `PINF(p, x)` with `x` the decimal real `num / den` (R84). -/
def pinfFrame (p : Byte) (num : Int) (den : Nat) : List Token := pinFrame p (nearestBinary32 num den)

/-- The environment will drive this stream, and nothing after it. -/
def State.driveStream (ts : List Token) (s : State) : State := { s with input := ts.map tokenPins }

end Sys2Proof.Machine
end

