-- ==== Sys2Proof/Safety.lean ====
section
/-! DEFINITION. The terms in which claims about runs are stated: the invariants of 10_state.md R36, runs and what the
ports show during one, the results of frame attempts, and the software framer of the source (40_framer.md R118). -/

namespace Sys2Proof.Machine

/-! ### The invariants of R36 -/

/-- Invariants (a) to (f) of R36 that speak of one state. The second half of (c), which speaks of the bytes taken since
the header, is a statement about runs. -/
structure Inv (s : State) : Prop where
  /-- (a) -/
  modeLegal : s.mode ≠ .reserved
  /-- (b) -/
  huntCount : s.mode = .hunt → s.cnt = 0
  /-- (c) -/
  payloadHeader : s.mode = .payload → ∃ n, payloadLen s.hdr = some n ∧ s.cnt.toNat < n
  /-- (d) -/
  faultFlag : s.mode = .fault ↔ s.faultCode ≠ .none
  /-- (e) -/
  oneResult : ¬ (s.outValid = true ∧ s.outNoframe = true)
  /-- (f) -/
  quietOutputs : s.outValid = false → s.outHeader = 0x00 ∧ s.outData = 0

/-! ### Runs -/

/-- The environment will drive these pins, one entry an edge. -/
def State.feed (ps : List Pins) (s : State) : State := { s with input := ps }

/-- The state after `n` steps. -/
def runSteps : Nat → State → Host.Outcome State Fault Refusal
  | 0, s => .next s
  | n + 1, s =>
    match step s with
    | .next t => runSteps n t
    | .fault r => .fault r
    | .refused r => .refused r

/-- What the ports show after each of the first `n` steps (R37). -/
def trace : Nat → State → List OutPorts
  | 0, _ => []
  | n + 1, s =>
    match step s with
    | .next t => t.ports :: trace n t
    | .fault _ => []
    | .refused _ => []

/-- The result of a frame attempt (R118): a sample with its kind tag, or NoFrame. -/
inductive FrameResult
  | sample (h : Byte) (d : SampleWord)
  | noFrame
  deriving DecidableEq, Repr

/-- What the ports report of a frame attempt: `out_valid` a sample, `out_noframe` NoFrame (R27, R30). -/
def OutPorts.result (o : OutPorts) : Option FrameResult :=
  if o.outValid = 1 then some (.sample o.outHeader o.outData) else if o.outNoframe = 1 then some .noFrame else none

/-- The results reported in the first `n` steps, in order. -/
def results (n : Nat) (s : State) : List FrameResult := (trace n s).filterMap OutPorts.result

/-! ### The software framer of the source (R118) -/

/-- `decode(frame)` of the source on a payload of the right length: dispatch on the header alone (R140). -/
def sampleOf (h : Byte) (payload : List Byte) : SampleWord :=
  if h = 0xAA then decodeSensor (payload.getD 0 0x00) (payload.getD 1 0x00) (payload.getD 2 0x00)
  else if h = 0xBB then decodeAction (payload.getD 0 0x00) (payload.getD 1 0x00) (payload.getD 2 0x00)
  else
    decodePin (payload.getD 0 0x00) (payload.getD 1 0x00) (payload.getD 2 0x00) (payload.getD 3 0x00)
      (payload.getD 4 0x00)

/-- `readFrame` after a header `h`: `need` more payload bytes, `got` those read. A timeout yields NoFrame and drops
them. The second part of the answer is what is left to read. -/
def readPayload (h : Byte) (need : Nat) (got : List Byte) : List Event → Option (FrameResult × List Event)
  | [] => none
  | .byte b :: es =>
    if need ≤ 1 then some (.sample h (sampleOf h (got ++ [b])), es) else readPayload h (need - 1) (got ++ [b]) es
  | .timeout :: es => some (.noFrame, es)
  | .idle :: es => readPayload h need got es
  | .fault :: _ => none
  | .protocol :: _ => none
  | .reset :: _ => none

/-- `readFrame(source)` of the source: consume bytes one at a time until a header or a timeout, then the payload. No
answer while the source still blocks. -/
def readFrame : List Event → Option (FrameResult × List Event)
  | [] => none
  | .byte b :: es =>
    match payloadLen b with
    | some n => readPayload b n [] es
    | none => readFrame es
  | .timeout :: es => some (.noFrame, es)
  | .idle :: es => readFrame es
  | .fault :: _ => none
  | .protocol :: _ => none
  | .reset :: _ => none

/-- The results of at most `k` successive calls of `readFrame`. -/
def readFrames : Nat → List Event → List FrameResult
  | 0, _ => []
  | k + 1, es =>
    match readFrame es with
    | some (r, rest) => r :: readFrames k rest
    | none => []

/-- An event of R118: no reset and no cause of a fault. -/
def ordinaryEvent : Event → Bool
  | .byte _ => true
  | .timeout => true
  | .idle => true
  | .fault => false
  | .protocol => false
  | .reset => false

/-- The events of a pin sequence without the idle steps (R114). -/
def eventsWithoutIdle (ps : List Pins) : List Event := (ps.map decodeEvent).filter (fun e => e != .idle)

end Sys2Proof.Machine
end

