-- ==== Sys2Proof/Certificates/Slice0/Obligations.lean ====
section
/-! DEFINITION. The statements about the block, from the numbered rules of spec/. Where a statement says
`step s = .next t`, the pins sampled are `s.pins`, and `t.input = s.input.tail` says that they are consumed. -/

open Sys2Proof Sys2Proof.Machine

/-! ### Encodings and tables -/

/-- R4: the header table has exactly the three entries. -/
def Obligations.HeaderTableHasThreeEntries : Prop :=
  (∀ h n, payloadLen h = some n ↔ (h = 0xAA ∧ n = 3) ∨ (h = 0xBB ∧ n = 3) ∨ (h = 0xCC ∧ n = 5)) ∧
    (∀ h, isHeader h = true ↔ h = 0xAA ∨ h = 0xBB ∨ h = 0xCC)

/-- R70: the event of the pins, row by row from the top. -/
def Obligations.PinsSelectOneEvent : Prop :=
  ∀ p : Pins,
    (p.rst = true → decodeEvent p = .reset) ∧
    (p.rst = false → p.inFault = true → decodeEvent p = .fault) ∧
    (p.rst = false → p.inFault = false → p.inTimeout = true → p.inValid = true → decodeEvent p = .protocol) ∧
    (p.rst = false → p.inFault = false → p.inTimeout = true → p.inValid = false → decodeEvent p = .timeout) ∧
    (p.rst = false → p.inFault = false → p.inTimeout = false → p.inValid = true →
      decodeEvent p = .byte p.inData) ∧
    (p.rst = false → p.inFault = false → p.inTimeout = false → p.inValid = false → decodeEvent p = .idle)

/-- Sanity: words written out from the rows of R85 and of format `frame_header` decode to their rows. -/
def Obligations.WordsOfTheTableDecode : Prop :=
  decodeStep 0b00100000000000 0x00 0 = some .evReset ∧
    decodeStep 0b10010000000000 0x00 0 = some .faultAbsorb ∧
    decodeStep 0b00001000000000 0x00 0 = some .huntTimeout ∧
    decodeStep 0b00000110111011 0x00 0 = some .huntHeaderBB ∧
    decodeStep 0b01000111001100 0xCC 4 = some (.payloadFinal 0xCC) ∧
    decodeStep 0b01000000000000 0x13 0 = some .consistency ∧
    decodeHeader 0b10111011 = some .hdrAction ∧
    decodeHeader 0b00010011 = some (.hdrDefect 0x13)

/-- R85: for every step word and every value of `hdr` and `cnt` a row matches, and the operation it gives is
well formed. -/
def Obligations.EveryStepWordHasARow : Prop :=
  ∀ (S : StepWord) (hdr : Byte) (cnt : Count), ∃ i, decodeStep S hdr cnt = some i ∧ i.wellFormed = true

/-- Decode and encode agree on every well-formed operation, at every operand. -/
def Obligations.DecodeOfEncodeIsIdentity : Prop :=
  ∀ i : Instr, i.wellFormed = true → decode (encode i) = .ok i

/-- R71: `in_data` matters only in a BYTE event. -/
def Obligations.InDataReadOnlyForByte : Prop :=
  ∀ (s : State) (p : Pins) (d : Byte) (rest : List Pins),
    (∀ b, decodeEvent p ≠ .byte b) → step (s.feed ({ p with inData := d } :: rest)) = step (s.feed (p :: rest))

/-- A step performs the operation its code decodes to, with the sampled pins consumed. -/
def Obligations.StepRunsDecodedOperation : Prop :=
  ∀ (s : State) (i : Instr), decode s.code = .ok i → step s = exec i { s with input := s.input.tail }

/-- A placed step word is decoded and performed by the next step (the model's choice of what a table word is decoded
with: log entries 4 and 5). -/
def Obligations.PlacedStepWordIsPerformed : Prop :=
  ∀ (s : State) (nbits w : Nat) (i : Instr), 8 < nbits → decodeTableWord nbits w = some i →
    step (s.withFetchWord nbits w) =
      exec i { s.withFetchWord nbits w with input := (s.withFetchWord nbits w).input.tail }

/-- A placed header byte reaches its decoder in the next step, which shows what the decoder's own operation shows of
the same buffer (the model's choice of how a header byte is placed: log entries 5 and 6). -/
def Obligations.PlacedHeaderByteIsDecoded : Prop :=
  ∀ (s : State) (nbits w : Nat) (i : Instr), nbits ≤ 8 → decodeTableWord nbits w = some i →
    isHeader (BitVec.ofNat 8 w) = true →
      ∃ t u, step (s.withFetchWord nbits w) = .next t ∧ exec i s = .next u ∧ t.outValid = true ∧ u.outValid = true ∧
        t.outHeader = u.outHeader ∧ t.outData = u.outData ∧ t.pbuf = s.pbuf

/-! ### Operations one by one: the next state of each row, with its frame -/

/-- R200: what EV_RESET writes; `hdr`, the buffer and the coming input are left. -/
def Obligations.EvResetLoadsResetValues : Prop :=
  ∀ s : State, exec .evReset s =
    .next { s with mode := .hunt, cnt := 0, faultCode := .none, outValid := false, outHeader := 0x00, outData := 0,
                   outNoframe := false }

/-- R102, R104, R109: FAULT_ABSORB, HUNT_NOISE and EV_IDLE clear the outputs and write nothing else. -/
def Obligations.AbsorbNoiseIdleOnlyClearOutputs : Prop :=
  ∀ (s : State) (i : Instr), i = .faultAbsorb ∨ (∃ b, i = .huntNoise b) ∨ i = .evIdle →
    exec i s = .next { s with outValid := false, outHeader := 0x00, outData := 0, outNoframe := false }

/-- R176, with R110 to R112: the four rows that raise a fault write the code and the mode, leave the outputs cleared
and freeze the rest. -/
def Obligations.FaultRowsEnterFaultMode : Prop :=
  ∀ (s : State) (i : Instr) (c : FaultCode),
    (i = .evFault ∧ c = .source) ∨ (i = .consistency ∧ c = .consistency) ∨ (i = .modeReserved ∧ c = .consistency) ∨
      (i = .evProtocol ∧ c = .protocol) →
    exec i s = .next { s with mode := .fault, faultCode := c, outValid := false, outHeader := 0x00, outData := 0,
                              outNoframe := false }

/-- R107, R108: both timeouts show NoFrame; in PAYLOAD the partial frame is dropped, with `hdr` and the buffer kept. -/
def Obligations.TimeoutRowsSignalNoFrame : Prop :=
  ∀ s : State,
    exec .huntTimeout s = .next { s with outValid := false, outHeader := 0x00, outData := 0, outNoframe := true } ∧
    exec .payloadTruncate s = .next { s with mode := .hunt, cnt := 0, outValid := false, outHeader := 0x00,
                                             outData := 0, outNoframe := true }

/-- R103: the three header rows write `hdr`, `cnt` and `mode`, with no output. -/
def Obligations.HeaderRowsStartAFrame : Prop :=
  ∀ (s : State) (i : Instr) (h : Byte),
    (i = .huntHeaderAA ∧ h = 0xAA) ∨ (i = .huntHeaderBB ∧ h = 0xBB) ∨ (i = .huntHeaderCC ∧ h = 0xCC) →
    exec i s = .next { s with mode := .payload, hdr := h, cnt := 0, outValid := false, outHeader := 0x00,
                              outData := 0, outNoframe := false }

/-- R105, R51: PAYLOAD_CAPTURE stores the byte in slot `cnt` and counts it; every other slot is kept. -/
def Obligations.CaptureRowStoresOneByte : Prop :=
  ∀ (s : State) (b : Byte), s.cnt.toNat < 5 →
    ∃ t, exec (.payloadCapture b) s = .next t ∧
      t = { s with cnt := s.cnt + 1, pbuf := t.pbuf, outValid := false, outHeader := 0x00, outData := 0,
                   outNoframe := false } ∧
      ∀ j < 5, t.pbuf[j]? = if j = s.cnt.toNat then some b else s.pbuf[j]?

/-- R106, R140, R51: PAYLOAD_FINAL is the store of the byte, then the decoder row that `hdr` selects on the buffer
with the byte in place, then the return to HUNT. -/
def Obligations.FinalRowRunsDecoderRow : Prop :=
  ∀ (s : State) (b : Byte) (hc : s.cnt.toNat < 5), isHeader s.hdr = true →
    ∃ i u, decodeHeader s.hdr = some i ∧
      exec i { s with pbuf := s.pbuf.set s.cnt.toNat b hc, outValid := false, outHeader := 0x00, outData := 0,
                      outNoframe := false } = .next u ∧
      exec (.payloadFinal b) s = .next { u with mode := .hunt, cnt := 0 } ∧ u.outValid = true ∧ u.outHeader = s.hdr

/-- R51, R144, R176: the two payload rows on a state no run reaches (an index above 4, or for PAYLOAD_FINAL a header
outside the table) raise CONSISTENCY with `hdr`, `cnt` and the buffer frozen. -/
def Obligations.PayloadRowsDefectRaisesConsistency : Prop :=
  ∀ (s : State) (b : Byte) (i : Instr),
    (i = .payloadCapture b ∧ 5 ≤ s.cnt.toNat) ∨
      (i = .payloadFinal b ∧ (5 ≤ s.cnt.toNat ∨ isHeader s.hdr = false)) →
    exec i s = .next { s with mode := .fault, faultCode := .consistency, outValid := false, outHeader := 0x00,
                              outData := 0, outNoframe := false }

/-! ### The decoders -/

/-- R53: little-endian assembly. -/
def Obligations.VoltageAssemblyIsLittleEndian : Prop :=
  ∀ b0 b1 b2 b3 : Byte,
    (le32 b0 b1 b2 b3).extractLsb' 0 8 = b0 ∧ (le32 b0 b1 b2 b3).extractLsb' 8 8 = b1 ∧
      (le32 b0 b1 b2 b3).extractLsb' 16 8 = b2 ∧ (le32 b0 b1 b2 b3).extractLsb' 24 8 = b3

/-- HDR_SENSOR as an operation of its own (the model's choice, log entry 6) shows the six slots of the buffer in the
source's order (R141, R79), and writes nothing else. -/
def Obligations.SensorRowShowsSixSlots : Prop :=
  ∀ s : State, ∃ t, exec .hdrSensor s = .next t ∧
    t = { s with outValid := true, outHeader := 0xAA, outData := t.outData } ∧
    lane t.outData 0 = (if s.pbuf[0].getLsbD 0 then 0x01 else 0x00) ∧
    lane t.outData 1 = (if s.pbuf[0].getLsbD 1 then 0x01 else 0x00) ∧
    lane t.outData 2 = s.pbuf[1] ∧
    lane t.outData 3 = (if s.pbuf[0].getLsbD 2 then 0x01 else 0x00) ∧
    lane t.outData 4 = (if s.pbuf[0].getLsbD 3 then 0x01 else 0x00) ∧
    lane t.outData 5 = s.pbuf[2]

/-- HDR_ACTION as an operation of its own (the model's choice, log entry 6) shows the five slots of the buffer in the
source's order, lane 5 zero (R142, R80), and writes nothing else. -/
def Obligations.ActionRowShowsFiveSlots : Prop :=
  ∀ s : State, ∃ t, exec .hdrAction s = .next t ∧
    t = { s with outValid := true, outHeader := 0xBB, outData := t.outData } ∧
    lane t.outData 0 = (if s.pbuf[2].getLsbD 4 then 0x01 else 0x00) ∧
    lane t.outData 1 = (if s.pbuf[1].getLsbD 0 then 0x01 else 0x00) ∧
    lane t.outData 2 = s.pbuf[0] ∧
    lane t.outData 3 = (if s.pbuf[1].getLsbD 4 then 0x01 else 0x00) ∧
    lane t.outData 4 = (if s.pbuf[2].getLsbD 0 then 0x01 else 0x00) ∧
    lane t.outData 5 = 0x00

/-- HDR_PIN as an operation of its own (the model's choice, log entry 6) shows the pin number and the voltage pattern
bit-exact, lane 5 zero (R143, R81), and writes nothing else. -/
def Obligations.PinRowShowsPinAndVoltage : Prop :=
  ∀ s : State, ∃ t, exec .hdrPin s = .next t ∧
    t = { s with outValid := true, outHeader := 0xCC, outData := t.outData } ∧
    lane t.outData 0 = s.pbuf[0] ∧ lane t.outData 1 = s.pbuf[1] ∧ lane t.outData 2 = s.pbuf[2] ∧
    lane t.outData 3 = s.pbuf[3] ∧ lane t.outData 4 = s.pbuf[4] ∧ lane t.outData 5 = 0x00 ∧
    t.outData.extractLsb' 8 32 = le32 s.pbuf[1] s.pbuf[2] s.pbuf[3] s.pbuf[4]

/-- R144: the decoder on a byte that is no header answers no sample; HDR_DEFECT, as an operation of its own (the model's
choice, log entry 6), raises CONSISTENCY. -/
def Obligations.DecodeDefectRaisesConsistency : Prop :=
  ∀ (h : Byte) (s : State) (p : Vector Byte 5), isHeader h = false →
    decodeHeader h = some (.hdrDefect h) ∧ decodeFrame h p = none ∧
      exec (.hdrDefect h) s = .next { s with mode := .fault, faultCode := .consistency }

/-- R145, R147: nothing the source gives a slot is lost and nothing else is in the sample: two payloads give the same
sample exactly when the bits the rules read agree. -/
def Obligations.SampleHoldsExactlyTheReadBits : Prop :=
  (∀ lb c cap lb' c' cap' : Byte, decodeSensor lb c cap = decodeSensor lb' c' cap' ↔
    (∀ i < 4, lb.getLsbD i = lb'.getLsbD i) ∧ c = c' ∧ cap = cap') ∧
  (∀ c d s c' d' s' : Byte, decodeAction c d s = decodeAction c' d' s' ↔
    c = c' ∧ d.getLsbD 0 = d'.getLsbD 0 ∧ d.getLsbD 4 = d'.getLsbD 4 ∧ s.getLsbD 0 = s'.getLsbD 0 ∧
      s.getLsbD 4 = s'.getLsbD 4) ∧
  (∀ p v0 v1 v2 v3 p' v0' v1' v2' v3' : Byte, decodePin p v0 v1 v2 v3 = decodePin p' v0' v1' v2' v3' ↔
    p = p' ∧ v0 = v0' ∧ v1 = v1' ∧ v2 = v2' ∧ v3 = v3')

/-- R146: the boolean view of the snapshots. -/
def Obligations.BooleanViewOfSnapshots : Prop :=
  (∀ c d s : Byte,
    actionBooleans (decodeAction c d s) =
      [s.getLsbD 4, d.getLsbD 0, decide (c ≠ 0x00), d.getLsbD 4, s.getLsbD 0] ∧
    ∀ k ∈ [0, 1, 3, 4], lane (decodeAction c d s) k = 0x00 ∨ lane (decodeAction c d s) k = 0x01) ∧
  (∀ lb c cap : Byte, ∀ k ∈ [0, 1, 3, 4], lane (decodeSensor lb c cap) k = 0x00 ∨ lane (decodeSensor lb c cap) k = 0x01)

/-! ### The step, rule by rule -/

/-- R100: the step is the chain of tests the rule writes. -/
def Obligations.StepIsTheRuleR100 : Prop :=
  ∀ s : State, step s = .next (stepR100 { s with input := s.input.tail } s.pins)

/-- R100: the step function gives a next state for every state and every pin value. -/
def Obligations.StepAlwaysAnswersNext : Prop := ∀ s : State, ∃ t, step s = .next t

/-- R200: a step with `rst = 1`, in any mode and with any other pin; and what the `hdr` and the buffer it leaves hold
never shows at an output. -/
def Obligations.ResetStep : Prop :=
  ∀ s : State, s.pins.rst = true →
    step s = .next (State.resetWith s.hdr s.pbuf s.input.tail) ∧
    ∀ (n : Nat) (hdr : Byte) (pbuf : Vector Byte 5),
      trace n (State.resetWith hdr pbuf s.input.tail) = trace n (State.resetWith s.hdr s.pbuf s.input.tail)

/-- R201: reset ignores the other pins, is the only way out of FAULT mode, and holding it gives the state of one
reset step. -/
def Obligations.ResetDominatesAndIsIdempotent : Prop :=
  (∀ (s : State) (p q : Pins) (rest : List Pins), p.rst = true → q.rst = true →
    step (s.feed (p :: rest)) = step (s.feed (q :: rest))) ∧
  (∀ s t : State, s.mode = .fault → step s = .next t → (t.mode ≠ .fault ↔ s.pins.rst = true)) ∧
  (∀ (s : State) (ps : List Pins), ps ≠ [] → (∀ p ∈ ps, p.rst = true) →
    runSteps ps.length (s.feed ps) = .next (State.resetWith s.hdr s.pbuf []))

/-- R102: FAULT mode absorbs every event but RESET. -/
def Obligations.FaultModeAbsorbs : Prop :=
  ∀ s : State, s.mode = .fault → decodeEvent s.pins ≠ .reset →
    step s = .next { s with outValid := false, outHeader := 0x00, outData := 0, outNoframe := false,
                            input := s.input.tail }

/-- R112: any event except RESET in a state that is not consistent raises CONSISTENCY. -/
def Obligations.InconsistentStateFaults : Prop :=
  ∀ s : State, decodeEvent s.pins ≠ .reset →
    (s.mode = .reserved ∨ (s.mode = .hunt ∧ s.cnt ≠ 0) ∨
      (s.mode = .payload ∧ (isHeader s.hdr = false ∨ ∃ n, payloadLen s.hdr = some n ∧ n ≤ s.cnt.toNat))) →
    step s = .next { s with mode := .fault, faultCode := .consistency, outValid := false, outHeader := 0x00,
                            outData := 0, outNoframe := false, input := s.input.tail }

/-- R110: a FAULT event in HUNT or PAYLOAD mode raises SOURCE. -/
def Obligations.SourceFaultStep : Prop :=
  ∀ s : State, s.mode = .hunt ∨ s.mode = .payload → s.Consistent → s.pins.rst = false → s.pins.inFault = true →
    step s = .next { s with mode := .fault, faultCode := .source, outValid := false, outHeader := 0x00,
                            outData := 0, outNoframe := false, input := s.input.tail }

/-- R111: a byte and a timeout in one step, in HUNT or PAYLOAD mode, raise PROTOCOL. -/
def Obligations.ProtocolFaultStep : Prop :=
  ∀ s : State, s.mode = .hunt ∨ s.mode = .payload → s.Consistent → s.pins.rst = false → s.pins.inFault = false →
    s.pins.inTimeout = true → s.pins.inValid = true →
    step s = .next { s with mode := .fault, faultCode := .protocol, outValid := false, outHeader := 0x00,
                            outData := 0, outNoframe := false, input := s.input.tail }

/-- R107: TIMEOUT in HUNT mode. -/
def Obligations.HuntTimeoutStep : Prop :=
  ∀ s : State, s.mode = .hunt → s.cnt = 0 → decodeEvent s.pins = .timeout →
    step s = .next { s with outValid := false, outHeader := 0x00, outData := 0, outNoframe := true,
                            input := s.input.tail }

/-- R108: TIMEOUT in PAYLOAD mode. -/
def Obligations.PayloadTruncateStep : Prop :=
  ∀ (s : State) (n : Nat), s.mode = .payload → payloadLen s.hdr = some n → s.cnt.toNat < n →
    decodeEvent s.pins = .timeout →
    step s = .next { s with mode := .hunt, cnt := 0, outValid := false, outHeader := 0x00, outData := 0,
                            outNoframe := true, input := s.input.tail }

/-- R109: no pin asserted in HUNT or PAYLOAD mode. -/
def Obligations.IdleStep : Prop :=
  ∀ s : State, s.mode = .hunt ∨ s.mode = .payload → s.Consistent → decodeEvent s.pins = .idle →
    step s = .next { s with outValid := false, outHeader := 0x00, outData := 0, outNoframe := false,
                            input := s.input.tail }

/-- R103: a header byte in HUNT mode. -/
def Obligations.HuntHeaderStep : Prop :=
  ∀ (s : State) (b : Byte), s.mode = .hunt → s.cnt = 0 → decodeEvent s.pins = .byte b → isHeader b = true →
    step s = .next { s with mode := .payload, hdr := b, cnt := 0, outValid := false, outHeader := 0x00, outData := 0,
                            outNoframe := false, input := s.input.tail }

/-- R104: any other byte in HUNT mode. -/
def Obligations.HuntNoiseStep : Prop :=
  ∀ (s : State) (b : Byte), s.mode = .hunt → s.cnt = 0 → decodeEvent s.pins = .byte b → isHeader b = false →
    step s = .next { s with outValid := false, outHeader := 0x00, outData := 0, outNoframe := false,
                            input := s.input.tail }

/-- R105: a byte in PAYLOAD mode that is not the last payload byte, of any value. -/
def Obligations.PayloadCaptureStep : Prop :=
  ∀ (s : State) (b : Byte) (n : Nat), s.mode = .payload → payloadLen s.hdr = some n → s.cnt.toNat + 1 < n →
    decodeEvent s.pins = .byte b →
    ∃ t, step s = .next t ∧
      t = { s with cnt := t.cnt, pbuf := t.pbuf, outValid := false, outHeader := 0x00, outData := 0,
                   outNoframe := false, input := s.input.tail } ∧
      t.cnt.toNat = s.cnt.toNat + 1 ∧ ∀ j < 5, t.pbuf[j]? = if j = s.cnt.toNat then some b else s.pbuf[j]?

/-- R106: the last payload byte, of any value: the buffer with the byte in place is decoded in this step, the sample is
shown, and the block hunts again. -/
def Obligations.PayloadFinalStep : Prop :=
  ∀ (s : State) (b : Byte), s.mode = .payload → payloadLen s.hdr = some (s.cnt.toNat + 1) →
    decodeEvent s.pins = .byte b →
    ∃ t, step s = .next t ∧
      t = { s with mode := .hunt, cnt := 0, pbuf := t.pbuf, outValid := true, outHeader := s.hdr,
                   outData := t.outData, outNoframe := false, input := s.input.tail } ∧
      (∀ j < 5, t.pbuf[j]? = if j = s.cnt.toNat then some b else s.pbuf[j]?) ∧
      (s.hdr = 0xAA → t.outData = decodeSensor t.pbuf[0] t.pbuf[1] t.pbuf[2]) ∧
      (s.hdr = 0xBB → t.outData = decodeAction t.pbuf[0] t.pbuf[1] t.pbuf[2]) ∧
      (s.hdr = 0xCC → t.outData = decodePin t.pbuf[0] t.pbuf[1] t.pbuf[2] t.pbuf[3] t.pbuf[4])

/-- R141: the last byte of a 0xAA frame shows the six slots in the source's order. -/
def Obligations.SensorFrameShowsSixSlots : Prop :=
  ∀ (s : State) (cap : Byte), s.mode = .payload → s.hdr = 0xAA → s.cnt = 2 → decodeEvent s.pins = .byte cap →
    ∃ t, step s = .next t ∧ t.outValid = true ∧ t.outHeader = 0xAA ∧ t.outNoframe = false ∧
      t.faultCode = s.faultCode ∧
      lane t.outData 0 = (if s.pbuf[0].getLsbD 0 then 0x01 else 0x00) ∧
      lane t.outData 1 = (if s.pbuf[0].getLsbD 1 then 0x01 else 0x00) ∧
      lane t.outData 2 = s.pbuf[1] ∧
      lane t.outData 3 = (if s.pbuf[0].getLsbD 2 then 0x01 else 0x00) ∧
      lane t.outData 4 = (if s.pbuf[0].getLsbD 3 then 0x01 else 0x00) ∧
      lane t.outData 5 = cap

/-- R142: the last byte of a 0xBB frame shows the five slots in the source's order, the collision byte unmasked. -/
def Obligations.ActionFrameShowsFiveSlots : Prop :=
  ∀ (s : State) (servo : Byte), s.mode = .payload → s.hdr = 0xBB → s.cnt = 2 → decodeEvent s.pins = .byte servo →
    ∃ t, step s = .next t ∧ t.outValid = true ∧ t.outHeader = 0xBB ∧ t.outNoframe = false ∧
      t.faultCode = s.faultCode ∧
      lane t.outData 0 = (if servo.getLsbD 4 then 0x01 else 0x00) ∧
      lane t.outData 1 = (if s.pbuf[1].getLsbD 0 then 0x01 else 0x00) ∧
      lane t.outData 2 = s.pbuf[0] ∧
      lane t.outData 3 = (if s.pbuf[1].getLsbD 4 then 0x01 else 0x00) ∧
      lane t.outData 4 = (if servo.getLsbD 0 then 0x01 else 0x00) ∧
      lane t.outData 5 = 0x00

/-- R143, R53: the last byte of a 0xCC frame shows the pin number and the little-endian voltage, bit-exact. -/
def Obligations.PinFrameShowsPinAndVoltage : Prop :=
  (∀ b0 b1 b2 b3 : Byte, le32 b0 b1 b2 b3 = b3 ++ b2 ++ b1 ++ b0) ∧
  ∀ (s : State) (v3 : Byte), s.mode = .payload → s.hdr = 0xCC → s.cnt = 4 → decodeEvent s.pins = .byte v3 →
    ∃ t, step s = .next t ∧ t.outValid = true ∧ t.outHeader = 0xCC ∧ t.outNoframe = false ∧
      t.faultCode = s.faultCode ∧
      t.outData.extractLsb' 0 8 = s.pbuf[0] ∧
      t.outData.extractLsb' 8 32 = le32 s.pbuf[1] s.pbuf[2] s.pbuf[3] v3 ∧
      t.outData.extractLsb' 40 8 = 0x00

/-! ### Rules about every step -/

/-- R27, R30, R82: a sample is shown exactly after a step that completed a frame, NoFrame exactly after a TIMEOUT in
HUNT or PAYLOAD mode, and without a sample the output word is zero. -/
def Obligations.OutputsArePulses : Prop :=
  ∀ s t : State, step s = .next t →
    (t.outValid = true ↔
      s.mode = .payload ∧ payloadLen s.hdr = some (s.cnt.toNat + 1) ∧ ∃ b, decodeEvent s.pins = .byte b) ∧
    (t.outNoframe = true ↔
      (s.mode = .hunt ∨ s.mode = .payload) ∧ s.Consistent ∧ decodeEvent s.pins = .timeout) ∧
    (t.outValid = false → t.outHeader = 0x00 ∧ t.outData = 0)

/-- R23, R25, R26: who writes `hdr`, the buffer and `fault_code`, and with what. -/
def Obligations.RegistersHaveOnlyTheirWriters : Prop :=
  ∀ s t : State, step s = .next t →
    (t.hdr ≠ s.hdr → s.mode = .hunt ∧ isHeader t.hdr = true ∧ decodeEvent s.pins = .byte t.hdr) ∧
    (∀ j < 5, t.pbuf[j]? ≠ s.pbuf[j]? →
      s.mode = .payload ∧ j = s.cnt.toNat ∧ ∃ b, decodeEvent s.pins = .byte b ∧ t.pbuf[j]? = some b) ∧
    (t.faultCode ≠ s.faultCode →
      (t.mode = .fault ∧ t.faultCode ≠ .none ∧ s.mode ≠ .fault) ∨
        (decodeEvent s.pins = .reset ∧ t.faultCode = .none))

/-- R21, R58 (a): one step consumes exactly one entry of the environment's input. -/
def Obligations.EachStepConsumesOneInput : Prop := ∀ s t : State, step s = .next t → t.input = s.input.tail

/-- R119: the only changes of mode. -/
def Obligations.ModeChangesAreTheRuleR119 : Prop :=
  ∀ s t : State, step s = .next t → t.mode ≠ s.mode →
    (s.mode = .hunt ∧ t.mode = .payload ∧ ∃ b, decodeEvent s.pins = .byte b ∧ isHeader b = true) ∨
    (s.mode = .payload ∧ t.mode = .hunt ∧
      ((∃ b, decodeEvent s.pins = .byte b ∧ payloadLen s.hdr = some (s.cnt.toNat + 1)) ∨
        decodeEvent s.pins = .timeout)) ∨
    (t.mode = .fault ∧
      (decodeEvent s.pins = .fault ∨ decodeEvent s.pins = .protocol ∨ ¬ s.Consistent)) ∨
    (t.mode = .hunt ∧ decodeEvent s.pins = .reset)

/-- R175: which cause is taken, in the order of the rule, and that a step that ends in FAULT mode shows no result. -/
def Obligations.FaultPriority : Prop :=
  ∀ s t : State, step s = .next t →
    (s.pins.rst = true → t.mode = .hunt ∧ t.faultCode = .none) ∧
    (s.pins.rst = false → s.mode = .fault → t.mode = .fault ∧ t.faultCode = s.faultCode) ∧
    (s.mode ≠ .fault →
      (t.mode = .fault ↔ s.pins.rst = false ∧
        (¬ s.Consistent ∨ s.pins.inFault = true ∨ (s.pins.inTimeout = true ∧ s.pins.inValid = true))) ∧
      (t.mode = .fault →
        (¬ s.Consistent → t.faultCode = .consistency) ∧
        (s.Consistent → s.pins.inFault = true → t.faultCode = .source) ∧
        (s.Consistent → s.pins.inFault = false → t.faultCode = .protocol))) ∧
    (t.mode = .fault → t.outValid = false ∧ t.outHeader = 0x00 ∧ t.outData = 0 ∧ t.outNoframe = false)

/-! ### Invariants and runs -/

/-- R36 at reset, whatever reset leaves in `hdr` and the buffer (R23, R25) and whatever the environment will drive. -/
def Obligations.ResetStateHasInvariants : Prop :=
  (∀ (hdr : Byte) (pbuf : Vector Byte 5) (input : List Pins), Inv (State.resetWith hdr pbuf input)) ∧ Inv State.reset

/-- R113: every step keeps the invariants of R36. -/
def Obligations.StepKeepsInvariants : Prop := ∀ s t : State, Inv s → step s = .next t → Inv t

/-- R36 (c), second half, and R52: in PAYLOAD mode the buffer holds the bytes taken since the header, in order. -/
def Obligations.BufferHoldsBytesInArrivalOrder : Prop :=
  ∀ (s : State) (ps : List Pins) (h : Byte) (n : Nat) (bs : List Byte), s.mode = .hunt → s.cnt = 0 →
    payloadLen h = some n → bs.length < n → eventsWithoutIdle ps = .byte h :: bs.map .byte →
    ∃ t, runSteps ps.length (s.feed ps) = .next t ∧ t.mode = .payload ∧ t.hdr = h ∧ t.cnt.toNat = bs.length ∧
      ∀ j < bs.length, t.pbuf[j]? = bs[j]?

/-- R177: FAULT mode is left only by RESET, and the first cause is kept; nothing is shown and nothing else changes. -/
def Obligations.FaultIsStickyUntilReset : Prop :=
  ∀ (s : State) (ps : List Pins), s.mode = .fault → (∀ p ∈ ps, p.rst = false) →
    results ps.length (s.feed ps) = [] ∧
    ∃ t, runSteps ps.length (s.feed ps) = .next t ∧ t.mode = .fault ∧ t.faultCode = s.faultCode ∧ t.hdr = s.hdr ∧
      t.cnt = s.cnt ∧ t.pbuf = s.pbuf

/-- R209: without a byte, TIMEOUT, FAULT or RESET a partial frame waits, for as long as that lasts. -/
def Obligations.PartialFrameWaitsWhileIdle : Prop :=
  ∀ (s : State) (ps : List Pins), s.mode = .payload → s.Consistent → (∀ p ∈ ps, decodeEvent p = .idle) →
    results ps.length (s.feed ps) = [] ∧
    ∃ t, runSteps ps.length (s.feed ps) = .next t ∧ t.mode = .payload ∧ t.hdr = s.hdr ∧ t.cnt = s.cnt ∧
      t.pbuf = s.pbuf ∧ t.faultCode = s.faultCode

/-- R36, R116: in HUNT mode what `hdr` and the buffer hold (after reset, or left of a dropped frame) never reaches an
output. -/
def Obligations.StaleBytesNeverReachOutputs : Prop :=
  ∀ (n : Nat) (s : State) (hdr : Byte) (pbuf : Vector Byte 5), s.mode = .hunt → s.cnt = 0 →
    trace n { s with hdr := hdr, pbuf := pbuf } = trace n s

/-- R114: inserting or removing IDLE steps changes neither the results nor the final registers. -/
def Obligations.IdleStepsChangeNoResult : Prop :=
  ∀ (s : State) (ps qs : List Pins), s.Consistent → eventsWithoutIdle ps = eventsWithoutIdle qs →
    results ps.length (s.feed ps) = results qs.length (s.feed qs) ∧
    ∃ t u, runSteps ps.length (s.feed ps) = .next t ∧ runSteps qs.length (s.feed qs) = .next u ∧
      t.mode = u.mode ∧ t.hdr = u.hdr ∧ t.cnt = u.cnt ∧ t.faultCode = u.faultCode

/-- R118, first form, with R115: noise bytes, a header, its payload: one sample, of that payload alone. -/
def Obligations.FrameAttemptGivesItsSample : Prop :=
  ∀ (s : State) (ps : List Pins) (noise payload : List Byte) (h : Byte), s.mode = .hunt → s.cnt = 0 →
    (∀ b ∈ noise, isHeader b = false) → payloadLen h = some payload.length →
    eventsWithoutIdle ps = noise.map .byte ++ .byte h :: payload.map .byte →
    results ps.length (s.feed ps) = [.sample h (sampleOf h payload)] ∧
    ∃ t, runSteps ps.length (s.feed ps) = .next t ∧ t.mode = .hunt ∧ t.cnt = 0 ∧ t.faultCode = s.faultCode

/-- R118, second form: noise bytes, optionally a header with too few payload bytes, then TIMEOUT: NoFrame alone. -/
def Obligations.CutFrameAttemptGivesNoFrame : Prop :=
  ∀ (s : State) (ps : List Pins) (noise started : List Byte), s.mode = .hunt → s.cnt = 0 →
    (∀ b ∈ noise, isHeader b = false) →
    (started = [] ∨ ∃ h n payload, started = h :: payload ∧ payloadLen h = some n ∧ payload.length < n) →
    eventsWithoutIdle ps = noise.map .byte ++ started.map .byte ++ [.timeout] →
    results ps.length (s.feed ps) = [.noFrame] ∧
    ∃ t, runSteps ps.length (s.feed ps) = .next t ∧ t.mode = .hunt ∧ t.cnt = 0 ∧ t.faultCode = s.faultCode

/-- R118: the block refines the source's framer: its results, in order, are those of successive calls of
`readFrame`. -/
def Obligations.BlockRefinesReadFrame : Prop :=
  ∀ (s : State) (ps : List Pins), s.mode = .hunt → s.cnt = 0 → (∀ p ∈ ps, ordinaryEvent (decodeEvent p) = true) →
    results ps.length (s.feed ps) = readFrames ps.length (ps.map decodeEvent)
end

