-- ==== Sys2Proof/Laws/Decode.lean ====
section
/-! SUPPORT. What the opcode table selects: the row of a step word as a function of mode, event, `hdr` and `cnt`
(30_encoding.md R85, the map in prose), and the fields of a step word. -/

namespace Sys2Proof

/-! ### The header table -/

theorem payloadLen_eq (h : Byte) :
    payloadLen h = if h = 0xAA then some 3 else if h = 0xBB then some 3 else if h = 0xCC then some 5 else none := by
  unfold payloadLen headerTable
  by_cases h1 : h = 0xAA
  · subst h1; rfl
  · by_cases h2 : h = 0xBB
    · subst h2; rfl
    · by_cases h3 : h = 0xCC
      · subst h3; rfl
      · have e1 : (h == 0xAA) = false := beq_false_of_ne h1
        have e2 : (h == 0xBB) = false := beq_false_of_ne h2
        have e3 : (h == 0xCC) = false := beq_false_of_ne h3
        rw [if_neg h1, if_neg h2, if_neg h3]
        unfold List.lookup
        rw [e1]
        unfold List.lookup
        simp only
        rw [e2]
        unfold List.lookup
        simp only
        rw [e3]
        rfl

theorem isHeader_iff (h : Byte) : isHeader h = true ↔ h = 0xAA ∨ h = 0xBB ∨ h = 0xCC := by
  unfold isHeader
  rw [payloadLen_eq]
  split_ifs <;> simp_all

theorem payloadLen_cases {h : Byte} {n : Nat} (hn : payloadLen h = some n) :
    h = 0xAA ∧ n = 3 ∨ h = 0xBB ∧ n = 3 ∨ h = 0xCC ∧ n = 5 := by
  rw [payloadLen_eq] at hn
  split_ifs at hn with h1 h2 h3 <;> simp_all

theorem payloadLen_le_maxPayload {h : Byte} {n : Nat} (hn : payloadLen h = some n) : n ≤ maxPayload := by
  have hm : maxPayload = 5 := rfl
  obtain ⟨_, rfl⟩ | ⟨_, rfl⟩ | ⟨_, rfl⟩ := payloadLen_cases hn <;> omega

/-! ### The fields of a step word -/

/-- The six bits of a step word above `in_data`. -/
def stepWordHigh (m : Mode) (rst inFault inTimeout inValid : Bool) : BitVec 6 :=
  m.bits ++ BitVec.ofBool rst ++ BitVec.ofBool inFault ++ BitVec.ofBool inTimeout ++ BitVec.ofBool inValid

theorem stepWord_eq_append (m : Mode) (p : Pins) :
    stepWord m p = stepWordHigh m p.rst p.inFault p.inTimeout p.inValid ++ p.inData := rfl

theorem stepWord_low (m : Mode) (p : Pins) : (stepWord m p).extractLsb' 0 8 = p.inData := by
  rw [stepWord_eq_append]
  exact BitVec.extractLsb'_append_eq_right

theorem stepWord_high (m : Mode) (p : Pins) :
    (stepWord m p).extractLsb' 8 6 = stepWordHigh m p.rst p.inFault p.inTimeout p.inValid := by
  rw [stepWord_eq_append]
  exact BitVec.extractLsb'_append_eq_left

theorem mode_of_stepWordHigh (m : Mode) (r f t v : Bool) :
    Mode.ofBits ((stepWordHigh m r f t v).extractLsb' 4 2) = m := by
  cases m <;> cases r <;> cases f <;> cases t <;> cases v <;> decide

theorem modeOfWord_stepWord (m : Mode) (p : Pins) : modeOfWord (stepWord m p) = m := by
  have hsub : (stepWord m p).extractLsb' 12 2 = ((stepWord m p).extractLsb' 8 6).extractLsb' 4 2 := by
    ext i hi
    simp only [BitVec.getElem_extractLsb', BitVec.getLsbD_extractLsb']
    have : 4 + i < 6 := by omega
    simp [this, ← Nat.add_assoc]
  unfold modeOfWord
  rw [hsub, stepWord_high, mode_of_stepWordHigh]

/-- A word is the part over mode and pins followed by the part over `in_data`. -/
theorem StepWord.eq_append (v : StepWord) : v = v.extractLsb' 8 6 ++ v.extractLsb' 0 8 := by
  refine BitVec.eq_of_getLsbD_eq fun i hi => ?_
  rw [BitVec.getLsbD_append]
  by_cases h : i < 8
  · simp [h]
  · have h' : 8 + (i - 8) = i := by omega
    have h6 : i - 8 < 6 := by omega
    simp [h, h', h6]

theorem append_eq_append_iff (a b : BitVec 6) (c d : Byte) :
    ((a ++ c : BitVec (6 + 8)) = b ++ d) ↔ (a = b ∧ c = d) := by
  refine ⟨fun h => ?_, fun h => by rw [h.1, h.2]⟩
  have h1 := congrArg (fun v : BitVec (6 + 8) => v.extractLsb' 8 6) h
  have h2 := congrArg (fun v : BitVec (6 + 8) => v.extractLsb' 0 8) h
  simp only [BitVec.extractLsb'_append_eq_left, BitVec.extractLsb'_append_eq_right] at h1 h2
  exact ⟨h1, h2⟩

/-- A mask splits into the part over mode and pins and the part over `in_data`. -/
theorem and_mask_beq_value (high : BitVec 6) (data : Byte) (mask value : StepWord) :
    (((high ++ data : BitVec (6 + 8)) &&& mask) == value) =
      ((high &&& mask.extractLsb' 8 6 == value.extractLsb' 8 6) &&
        (data &&& mask.extractLsb' 0 8 == value.extractLsb' 0 8)) := by
  conv_lhs => rw [StepWord.eq_append mask, StepWord.eq_append value]
  rw [Bool.eq_iff_iff]
  simp only [beq_iff_eq, Bool.and_eq_true]
  rw [← append_eq_append_iff]
  exact iff_of_eq (congrArg (· = _) BitVec.and_append)

/-! ### The row a step selects -/

/-- The map in prose of R85: the operation of a step by mode and event, in the priority of R100. -/
def operationOf (m : Mode) (ev : Event) (hdr : Byte) (cnt : Count) : Option Instr :=
  if ev = .reset then some .evReset
  else if m = .fault then some .faultAbsorb
  else if m = .reserved then some .modeReserved
  else if consistent m hdr cnt = false then some .consistency
  else
    match ev with
    | .reset => some .evReset
    | .fault => some .evFault
    | .protocol => some .evProtocol
    | .timeout => if m = .hunt then some .huntTimeout else some .payloadTruncate
    | .idle => some .evIdle
    | .byte b =>
      if m = .hunt then
        if b = 0xAA then some .huntHeaderAA
        else if b = 0xBB then some .huntHeaderBB
        else if b = 0xCC then some .huntHeaderCC
        else some (.huntNoise b)
      else
        if RowCondition.midPayload.holds m hdr cnt then some (.payloadCapture b) else some (.payloadFinal b)

theorem lastPayload_of_not_midPayload {hdr : Byte} {cnt : Count} (hc : consistent .payload hdr cnt = true)
    (hm : RowCondition.midPayload.holds .payload hdr cnt = false) :
    RowCondition.lastPayload.holds .payload hdr cnt = true := by
  cases hn : payloadLen hdr with
  | none => simp [consistent, hn] at hc
  | some n =>
    simp only [consistent, RowCondition.holds, hn, decide_eq_true_eq, decide_eq_false_iff_not, beq_iff_eq] at *
    omega

theorem StepRow.hits_stepWord (r : StepRow) (m : Mode) (p : Pins) (hdr : Byte) (cnt : Count) :
    r.hits (stepWord m p) hdr cnt =
      ((stepWordHigh m p.rst p.inFault p.inTimeout p.inValid &&& r.mask.extractLsb' 8 6 == r.value.extractLsb' 8 6) &&
        (p.inData &&& r.mask.extractLsb' 0 8 == r.value.extractLsb' 0 8) && r.condition.holds m hdr cnt) := by
  rw [StepRow.hits, modeOfWord_stepWord, stepWord_eq_append, and_mask_beq_value]

theorem and_low_mask (d : Byte) : d &&& 255#8 = d := BitVec.and_allOnes

/-- The first row of the table that matches a step is the one the map in prose of R85 names. -/
theorem decodeStep_eq (m : Mode) (p : Pins) (hdr : Byte) (cnt : Count) :
    decodeStep (stepWord m p) hdr cnt = operationOf m (decodeEvent p) hdr cnt := by
  obtain ⟨r, f, t, v, d⟩ := p
  have hAlways : ∀ m', RowCondition.always.holds m' hdr cnt = true := fun _ => rfl
  have hNot : ∀ m', RowCondition.notConsistent.holds m' hdr cnt = !consistent m' hdr cnt := fun _ => rfl
  unfold decodeStep
  simp only [StepRow.hits_stepWord, stepWord_low]
  cases hc : consistent m hdr cnt with
  | false =>
    cases m <;> cases r <;> cases f <;> cases t <;> cases v <;>
      simp [stepTable, stepRowsResetAndFaults, stepWordHigh, Mode.bits, List.find?, operationOf, decodeEvent, hAlways,
        hNot, hc]
  | true =>
    cases hm : RowCondition.midPayload.holds m hdr cnt with
    | true =>
      cases m <;> cases r <;> cases f <;> cases t <;> cases v <;>
        simp [stepTable, stepRowsResetAndFaults, stepRowsNoByte, stepRowsByte, stepWordHigh, Mode.bits, List.find?,
          operationOf, decodeEvent, and_low_mask, hAlways, hNot, hc, hm]
      by_cases h1 : d = 170#8 <;> by_cases h2 : d = 187#8 <;> by_cases h3 : d = 204#8 <;> simp_all [beq_false_of_ne]
    | false =>
      have hl (hp : m = .payload) : RowCondition.lastPayload.holds m hdr cnt = true := by
        subst hp
        exact lastPayload_of_not_midPayload hc hm
      cases m <;> cases r <;> cases f <;> cases t <;> cases v <;>
        simp [stepTable, stepRowsResetAndFaults, stepRowsNoByte, stepRowsByte, stepWordHigh, Mode.bits, List.find?,
          operationOf, decodeEvent, and_low_mask, hAlways, hNot, hc, hm, hl]
      by_cases h1 : d = 170#8 <;> by_cases h2 : d = 187#8 <;> by_cases h3 : d = 204#8 <;> simp_all [beq_false_of_ne]

/-- The decoder row of a header byte (R140). -/
theorem decodeHeader_eq (h : Byte) :
    decodeHeader h =
      if h = 0xAA then some .hdrSensor else if h = 0xBB then some .hdrAction else if h = 0xCC then some .hdrPin
      else some (.hdrDefect h) := by
  unfold decodeHeader frameHeaderTable
  have hm : h &&& 0xFF = h := and_low_mask h
  simp only [List.find?, hm]
  by_cases h1 : h = 0xAA
  · subst h1; rfl
  · by_cases h2 : h = 0xBB
    · subst h2; rfl
    · by_cases h3 : h = 0xCC
      · subst h3; rfl
      · rw [if_neg h1, if_neg h2, if_neg h3, beq_false_of_ne h1, beq_false_of_ne h2, beq_false_of_ne h3]
        simp

end Sys2Proof
end

