-- ==== Sys2Proof/Laws/State.lean ====
section
/-! SUPPORT. One lemma per field of State and operation that updates it, each by unfolding one record update. -/

namespace Sys2Proof.Machine

@[simp] theorem State.clearOutputs_mode (s : State) : (s.clearOutputs).mode = s.mode := rfl
@[simp] theorem State.clearOutputs_hdr (s : State) : (s.clearOutputs).hdr = s.hdr := rfl
@[simp] theorem State.clearOutputs_cnt (s : State) : (s.clearOutputs).cnt = s.cnt := rfl
@[simp] theorem State.clearOutputs_pbuf (s : State) : (s.clearOutputs).pbuf = s.pbuf := rfl
@[simp] theorem State.clearOutputs_faultCode (s : State) : (s.clearOutputs).faultCode = s.faultCode := rfl
@[simp] theorem State.clearOutputs_outValid (s : State) : (s.clearOutputs).outValid = false := rfl
@[simp] theorem State.clearOutputs_outHeader (s : State) : (s.clearOutputs).outHeader = 0x00 := rfl
@[simp] theorem State.clearOutputs_outData (s : State) : (s.clearOutputs).outData = 0 := rfl
@[simp] theorem State.clearOutputs_outNoframe (s : State) : (s.clearOutputs).outNoframe = false := rfl
@[simp] theorem State.clearOutputs_input (s : State) : (s.clearOutputs).input = s.input := rfl

@[simp] theorem State.emit_mode (h : Byte) (d : SampleWord) (s : State) : (s.emit h d).mode = s.mode := rfl
@[simp] theorem State.emit_hdr (h : Byte) (d : SampleWord) (s : State) : (s.emit h d).hdr = s.hdr := rfl
@[simp] theorem State.emit_cnt (h : Byte) (d : SampleWord) (s : State) : (s.emit h d).cnt = s.cnt := rfl
@[simp] theorem State.emit_pbuf (h : Byte) (d : SampleWord) (s : State) : (s.emit h d).pbuf = s.pbuf := rfl
@[simp] theorem State.emit_faultCode (h : Byte) (d : SampleWord) (s : State) : (s.emit h d).faultCode = s.faultCode := rfl
@[simp] theorem State.emit_outValid (h : Byte) (d : SampleWord) (s : State) : (s.emit h d).outValid = true := rfl
@[simp] theorem State.emit_outHeader (h : Byte) (d : SampleWord) (s : State) : (s.emit h d).outHeader = h := rfl
@[simp] theorem State.emit_outData (h : Byte) (d : SampleWord) (s : State) : (s.emit h d).outData = d := rfl
@[simp] theorem State.emit_outNoframe (h : Byte) (d : SampleWord) (s : State) : (s.emit h d).outNoframe = s.outNoframe := rfl
@[simp] theorem State.emit_input (h : Byte) (d : SampleWord) (s : State) : (s.emit h d).input = s.input := rfl

@[simp] theorem State.noframe_mode (s : State) : (s.noframe).mode = s.mode := rfl
@[simp] theorem State.noframe_hdr (s : State) : (s.noframe).hdr = s.hdr := rfl
@[simp] theorem State.noframe_cnt (s : State) : (s.noframe).cnt = s.cnt := rfl
@[simp] theorem State.noframe_pbuf (s : State) : (s.noframe).pbuf = s.pbuf := rfl
@[simp] theorem State.noframe_faultCode (s : State) : (s.noframe).faultCode = s.faultCode := rfl
@[simp] theorem State.noframe_outValid (s : State) : (s.noframe).outValid = s.outValid := rfl
@[simp] theorem State.noframe_outHeader (s : State) : (s.noframe).outHeader = s.outHeader := rfl
@[simp] theorem State.noframe_outData (s : State) : (s.noframe).outData = s.outData := rfl
@[simp] theorem State.noframe_outNoframe (s : State) : (s.noframe).outNoframe = true := rfl
@[simp] theorem State.noframe_input (s : State) : (s.noframe).input = s.input := rfl

@[simp] theorem State.acceptHeader_mode (b : Byte) (s : State) : (s.acceptHeader b).mode = .payload := rfl
@[simp] theorem State.acceptHeader_hdr (b : Byte) (s : State) : (s.acceptHeader b).hdr = b := rfl
@[simp] theorem State.acceptHeader_cnt (b : Byte) (s : State) : (s.acceptHeader b).cnt = 0 := rfl
@[simp] theorem State.acceptHeader_pbuf (b : Byte) (s : State) : (s.acceptHeader b).pbuf = s.pbuf := rfl
@[simp] theorem State.acceptHeader_faultCode (b : Byte) (s : State) : (s.acceptHeader b).faultCode = s.faultCode := rfl
@[simp] theorem State.acceptHeader_outValid (b : Byte) (s : State) : (s.acceptHeader b).outValid = s.outValid := rfl
@[simp] theorem State.acceptHeader_outHeader (b : Byte) (s : State) : (s.acceptHeader b).outHeader = s.outHeader := rfl
@[simp] theorem State.acceptHeader_outData (b : Byte) (s : State) : (s.acceptHeader b).outData = s.outData := rfl
@[simp] theorem State.acceptHeader_outNoframe (b : Byte) (s : State) : (s.acceptHeader b).outNoframe = s.outNoframe := rfl
@[simp] theorem State.acceptHeader_input (b : Byte) (s : State) : (s.acceptHeader b).input = s.input := rfl

@[simp] theorem State.countByte_mode (s : State) : (s.countByte).mode = s.mode := rfl
@[simp] theorem State.countByte_hdr (s : State) : (s.countByte).hdr = s.hdr := rfl
@[simp] theorem State.countByte_cnt (s : State) : (s.countByte).cnt = s.cnt + 1 := rfl
@[simp] theorem State.countByte_pbuf (s : State) : (s.countByte).pbuf = s.pbuf := rfl
@[simp] theorem State.countByte_faultCode (s : State) : (s.countByte).faultCode = s.faultCode := rfl
@[simp] theorem State.countByte_outValid (s : State) : (s.countByte).outValid = s.outValid := rfl
@[simp] theorem State.countByte_outHeader (s : State) : (s.countByte).outHeader = s.outHeader := rfl
@[simp] theorem State.countByte_outData (s : State) : (s.countByte).outData = s.outData := rfl
@[simp] theorem State.countByte_outNoframe (s : State) : (s.countByte).outNoframe = s.outNoframe := rfl
@[simp] theorem State.countByte_input (s : State) : (s.countByte).input = s.input := rfl

@[simp] theorem State.toHunt_mode (s : State) : (s.toHunt).mode = .hunt := rfl
@[simp] theorem State.toHunt_hdr (s : State) : (s.toHunt).hdr = s.hdr := rfl
@[simp] theorem State.toHunt_cnt (s : State) : (s.toHunt).cnt = 0 := rfl
@[simp] theorem State.toHunt_pbuf (s : State) : (s.toHunt).pbuf = s.pbuf := rfl
@[simp] theorem State.toHunt_faultCode (s : State) : (s.toHunt).faultCode = s.faultCode := rfl
@[simp] theorem State.toHunt_outValid (s : State) : (s.toHunt).outValid = s.outValid := rfl
@[simp] theorem State.toHunt_outHeader (s : State) : (s.toHunt).outHeader = s.outHeader := rfl
@[simp] theorem State.toHunt_outData (s : State) : (s.toHunt).outData = s.outData := rfl
@[simp] theorem State.toHunt_outNoframe (s : State) : (s.toHunt).outNoframe = s.outNoframe := rfl
@[simp] theorem State.toHunt_input (s : State) : (s.toHunt).input = s.input := rfl

@[simp] theorem State.raiseFault_mode (c : FaultCode) (s : State) : (s.raiseFault c).mode = .fault := rfl
@[simp] theorem State.raiseFault_hdr (c : FaultCode) (s : State) : (s.raiseFault c).hdr = s.hdr := rfl
@[simp] theorem State.raiseFault_cnt (c : FaultCode) (s : State) : (s.raiseFault c).cnt = s.cnt := rfl
@[simp] theorem State.raiseFault_pbuf (c : FaultCode) (s : State) : (s.raiseFault c).pbuf = s.pbuf := rfl
@[simp] theorem State.raiseFault_faultCode (c : FaultCode) (s : State) : (s.raiseFault c).faultCode = c := rfl
@[simp] theorem State.raiseFault_outValid (c : FaultCode) (s : State) : (s.raiseFault c).outValid = s.outValid := rfl
@[simp] theorem State.raiseFault_outHeader (c : FaultCode) (s : State) : (s.raiseFault c).outHeader = s.outHeader := rfl
@[simp] theorem State.raiseFault_outData (c : FaultCode) (s : State) : (s.raiseFault c).outData = s.outData := rfl
@[simp] theorem State.raiseFault_outNoframe (c : FaultCode) (s : State) : (s.raiseFault c).outNoframe = s.outNoframe := rfl
@[simp] theorem State.raiseFault_input (c : FaultCode) (s : State) : (s.raiseFault c).input = s.input := rfl

@[simp] theorem State.resetRegisters_mode (s : State) : (s.resetRegisters).mode = .hunt := rfl
@[simp] theorem State.resetRegisters_hdr (s : State) : (s.resetRegisters).hdr = s.hdr := rfl
@[simp] theorem State.resetRegisters_cnt (s : State) : (s.resetRegisters).cnt = 0 := rfl
@[simp] theorem State.resetRegisters_pbuf (s : State) : (s.resetRegisters).pbuf = s.pbuf := rfl
@[simp] theorem State.resetRegisters_faultCode (s : State) : (s.resetRegisters).faultCode = .none := rfl
@[simp] theorem State.resetRegisters_outValid (s : State) : (s.resetRegisters).outValid = false := rfl
@[simp] theorem State.resetRegisters_outHeader (s : State) : (s.resetRegisters).outHeader = 0x00 := rfl
@[simp] theorem State.resetRegisters_outData (s : State) : (s.resetRegisters).outData = 0 := rfl
@[simp] theorem State.resetRegisters_outNoframe (s : State) : (s.resetRegisters).outNoframe = false := rfl
@[simp] theorem State.resetRegisters_input (s : State) : (s.resetRegisters).input = s.input := rfl

@[simp] theorem State.consumePins_mode (s : State) : (s.consumePins).mode = s.mode := rfl
@[simp] theorem State.consumePins_hdr (s : State) : (s.consumePins).hdr = s.hdr := rfl
@[simp] theorem State.consumePins_cnt (s : State) : (s.consumePins).cnt = s.cnt := rfl
@[simp] theorem State.consumePins_pbuf (s : State) : (s.consumePins).pbuf = s.pbuf := rfl
@[simp] theorem State.consumePins_faultCode (s : State) : (s.consumePins).faultCode = s.faultCode := rfl
@[simp] theorem State.consumePins_outValid (s : State) : (s.consumePins).outValid = s.outValid := rfl
@[simp] theorem State.consumePins_outHeader (s : State) : (s.consumePins).outHeader = s.outHeader := rfl
@[simp] theorem State.consumePins_outData (s : State) : (s.consumePins).outData = s.outData := rfl
@[simp] theorem State.consumePins_outNoframe (s : State) : (s.consumePins).outNoframe = s.outNoframe := rfl
@[simp] theorem State.consumePins_input (s : State) : (s.consumePins).input = s.input.tail := rfl

@[simp] theorem State.feed_mode (ps : List Pins) (s : State) : (s.feed ps).mode = s.mode := rfl
@[simp] theorem State.feed_hdr (ps : List Pins) (s : State) : (s.feed ps).hdr = s.hdr := rfl
@[simp] theorem State.feed_cnt (ps : List Pins) (s : State) : (s.feed ps).cnt = s.cnt := rfl
@[simp] theorem State.feed_pbuf (ps : List Pins) (s : State) : (s.feed ps).pbuf = s.pbuf := rfl
@[simp] theorem State.feed_faultCode (ps : List Pins) (s : State) : (s.feed ps).faultCode = s.faultCode := rfl
@[simp] theorem State.feed_outValid (ps : List Pins) (s : State) : (s.feed ps).outValid = s.outValid := rfl
@[simp] theorem State.feed_outHeader (ps : List Pins) (s : State) : (s.feed ps).outHeader = s.outHeader := rfl
@[simp] theorem State.feed_outData (ps : List Pins) (s : State) : (s.feed ps).outData = s.outData := rfl
@[simp] theorem State.feed_outNoframe (ps : List Pins) (s : State) : (s.feed ps).outNoframe = s.outNoframe := rfl
@[simp] theorem State.feed_input (ps : List Pins) (s : State) : (s.feed ps).input = ps := rfl

end Sys2Proof.Machine
end

