-- ==== Sys2Proof/Laws/Ops.lean ====
section
/-! SUPPORT. What each shared operation and each decoder can do, once. -/

namespace Sys2Proof.Machine

/-! ### The payload buffer (R51) -/

theorem State.pbufWrite_of_lt {i : Count} (hi : i.toNat < 5) (b : Byte) (s : State) :
    s.pbufWrite i b = some { s with pbuf := s.pbuf.set i.toNat b hi } := by
  simp [State.pbufWrite, hi]

theorem State.pbufWrite_of_ge {i : Count} (hi : 5 ≤ i.toNat) (b : Byte) (s : State) : s.pbufWrite i b = none := by
  simp [State.pbufWrite, Nat.not_lt.mpr hi]

/-- All a write can do: the index is in range, the slot holds the byte, and nothing else changes. -/
theorem State.pbufWrite_cases {i : Count} {b : Byte} {s t : State} (h : s.pbufWrite i b = some t) :
    ∃ hi : i.toNat < 5, t = { s with pbuf := s.pbuf.set i.toNat b hi } := by
  unfold State.pbufWrite at h
  split at h
  · next hi => exact ⟨hi, (Option.some.inj h).symm⟩
  · cases h

theorem State.pbufRead_pbufWrite {i j : Count} {b : Byte} {s t : State} (h : s.pbufWrite i b = some t) :
    t.pbufRead j = if j = i then some b else s.pbufRead j := by
  obtain ⟨hi, rfl⟩ := State.pbufWrite_cases h
  simp only [State.pbufRead, Vector.getElem?_set]
  by_cases hj : j = i
  · rw [hj, if_pos rfl, if_pos rfl]
  · have hij : i.toNat ≠ j.toNat := fun h => hj (BitVec.eq_of_toNat_eq h).symm
    rw [if_neg hij, if_neg hj]

/-! ### Output clear and fault entry -/

theorem State.clearOutputs_idempotent (s : State) : s.clearOutputs.clearOutputs = s.clearOutputs := rfl

theorem State.resetRegisters_eq_resetWith (s : State) : s.resetRegisters = State.resetWith s.hdr s.pbuf s.input := rfl

/-- A fault entry in a step shows nothing: the outputs were cleared (R176). -/
theorem State.ports_clear_raiseFault (s : State) (c : FaultCode) :
    (s.clearOutputs.raiseFault c).ports = ⟨0, 0, 0, 0, c.bits⟩ := rfl

/-- The value of `fault_code` tells the causes apart, and 0 is none of them (R170). -/
theorem faultCode_bits_injective {c d : FaultCode} (h : c.bits = d.bits) : c = d := by
  cases c <;> cases d <;> first | rfl | (revert h; decide)

/-! ### The decoders -/

/-- The decoder of a header byte, by cases (R140). -/
theorem decodeFrame_eq (h : Byte) (p : Vector Byte 5) :
    decodeFrame h p =
      if h = 0xAA then some ((0xAA : Byte), decodeSensor p[0] p[1] p[2])
      else if h = 0xBB then some ((0xBB : Byte), decodeAction p[0] p[1] p[2])
      else if h = 0xCC then some ((0xCC : Byte), decodePin p[0] p[1] p[2] p[3] p[4])
      else none := by
  unfold decodeFrame
  rw [decodeHeader_eq]
  split_ifs <;> rfl

/-- On a header the decoder answers the header itself as kind tag (R140). -/
theorem decodeFrame_of_isHeader {h : Byte} (hh : isHeader h = true) (p : Vector Byte 5) :
    decodeFrame h p = some (h, decodeByHeader h p) := by
  rw [decodeFrame_eq]
  unfold decodeByHeader
  obtain rfl | rfl | rfl := (isHeader_iff h).mp hh <;> rfl

theorem decodeFrame_of_not_isHeader {h : Byte} (hh : isHeader h = false) (p : Vector Byte 5) :
    decodeFrame h p = none := by
  have hn : ¬ (h = 0xAA ∨ h = 0xBB ∨ h = 0xCC) := fun hc => by simp [(isHeader_iff h).mpr hc] at hh
  rw [decodeFrame_eq]
  simp_all

/-- A lane of an assembled output word (R78). -/
theorem lane_lanes (l0 l1 l2 l3 l4 l5 : Byte) :
    lane (lanes l0 l1 l2 l3 l4 l5) 0 = l0 ∧ lane (lanes l0 l1 l2 l3 l4 l5) 1 = l1 ∧
      lane (lanes l0 l1 l2 l3 l4 l5) 2 = l2 ∧ lane (lanes l0 l1 l2 l3 l4 l5) 3 = l3 ∧
      lane (lanes l0 l1 l2 l3 l4 l5) 4 = l4 ∧ lane (lanes l0 l1 l2 l3 l4 l5) 5 = l5 := by
  refine ⟨?_, ?_, ?_, ?_, ?_, ?_⟩ <;>
  · refine BitVec.eq_of_getLsbD_eq fun i hi => ?_
    simp only [lane, lanes, BitVec.getLsbD_extractLsb', BitVec.getLsbD_append, hi, decide_true, Bool.true_and]
    split_ifs <;> first | omega | (congr 1; omega)

/-- A pin sample is its five payload bytes in lanes 0 to 4 (R81). -/
theorem decodePin_eq_lanes (pin v0 v1 v2 v3 : Byte) : decodePin pin v0 v1 v2 v3 = lanes pin v0 v1 v2 v3 0x00 := by
  refine BitVec.eq_of_getLsbD_eq fun i hi => ?_
  simp only [decodePin, le32, lanes, BitVec.getLsbD_append]
  split_ifs <;> first | rfl | omega

/-- Two assembled words are equal exactly when their lanes are. -/
theorem lanes_inj {a0 a1 a2 a3 a4 a5 b0 b1 b2 b3 b4 b5 : Byte} :
    lanes a0 a1 a2 a3 a4 a5 = lanes b0 b1 b2 b3 b4 b5 ↔
      a0 = b0 ∧ a1 = b1 ∧ a2 = b2 ∧ a3 = b3 ∧ a4 = b4 ∧ a5 = b5 := by
  refine ⟨fun h => ?_, fun ⟨h0, h1, h2, h3, h4, h5⟩ => by rw [h0, h1, h2, h3, h4, h5]⟩
  obtain ⟨x0, x1, x2, x3, x4, x5⟩ := lane_lanes a0 a1 a2 a3 a4 a5
  obtain ⟨y0, y1, y2, y3, y4, y5⟩ := lane_lanes b0 b1 b2 b3 b4 b5
  rw [h] at x0 x1 x2 x3 x4 x5
  exact ⟨x0.symm.trans y0, x1.symm.trans y1, x2.symm.trans y2, x3.symm.trans y3, x4.symm.trans y4, x5.symm.trans y5⟩

/-- A bit slot is 0x00 or 0x01 (R78). -/
theorem zext8_bitOf (v : Byte) (i : Nat) : zext8 (bitOf v i) = if v.getLsbD i then 0x01 else 0x00 := by
  unfold bitOf
  cases v.getLsbD i <;> rfl

/-- The two masks of R142 read bits 0 and 4. -/
theorem zext8_nz_mask (v : Byte) :
    zext8 (nz (v &&& 0x01)) = (if v.getLsbD 0 then 0x01 else 0x00) ∧
      zext8 (nz (v &&& 0x10)) = (if v.getLsbD 4 then 0x01 else 0x00) := by
  revert v
  decide

end Sys2Proof.Machine
end

