-- ==== Sys2Proof/Laws/Step.lean ====
section
/-! SUPPORT. A step through the map in prose of R85, the check of R100 in both its spellings, and step words put
together again from their fields. -/

namespace Sys2Proof

theorem consistent_hunt (hdr : Byte) (cnt : Count) : consistent .hunt hdr cnt = true ↔ cnt = 0 := by
  simp [consistent]

theorem consistent_payload (hdr : Byte) (cnt : Count) :
    consistent .payload hdr cnt = true ↔ ∃ n, payloadLen hdr = some n ∧ cnt.toNat < n := by
  unfold consistent
  cases payloadLen hdr <;> simp

/-- The bits of a step word above `in_data` (R85). -/
theorem stepWordHigh_bits (m : Mode) (r f t v : Bool) :
    (stepWordHigh m r f t v).getLsbD 0 = v ∧ (stepWordHigh m r f t v).getLsbD 1 = t ∧
      (stepWordHigh m r f t v).getLsbD 2 = f ∧ (stepWordHigh m r f t v).getLsbD 3 = r ∧
      (stepWordHigh m r f t v).getLsbD 4 = m.bits.getLsbD 0 ∧ (stepWordHigh m r f t v).getLsbD 5 = m.bits.getLsbD 1 := by
  cases m <;> cases r <;> cases f <;> cases t <;> cases v <;> decide

theorem Mode.bits_ofBits (v : BitVec 2) : (Mode.ofBits v).bits = v := by
  revert v
  decide

/-- A step word is the one its own fields make (R85). -/
theorem stepWord_fields (S : StepWord) : stepWord (modeOfWord S) (pinsOfWord S) = S := by
  obtain ⟨e0, e1, e2, e3, e4, e5⟩ := stepWordHigh_bits (modeOfWord S) (S.getLsbD 11) (S.getLsbD 10) (S.getLsbD 9)
    (S.getLsbD 8)
  rw [modeOfWord, Mode.bits_ofBits] at e4 e5
  refine BitVec.eq_of_getLsbD_eq fun i hi => ?_
  rw [stepWord_eq_append, BitVec.getLsbD_append]
  by_cases h8 : i < 8
  · rw [if_pos h8]
    simp [pinsOfWord, h8]
  · rw [if_neg h8]
    obtain rfl | rfl | rfl | rfl | rfl | rfl : i = 8 ∨ i = 9 ∨ i = 10 ∨ i = 11 ∨ i = 12 ∨ i = 13 := by omega
    · exact e0
    · exact e1
    · exact e2
    · exact e3
    · exact e4.trans (by simp)
    · exact e5.trans (by simp)

theorem pinsOfWord_stepWord (m : Mode) (p : Pins) : pinsOfWord (stepWord m p) = p := by
  have hbits (k : Nat) (hk : k < 6) :
      (stepWord m p).getLsbD (8 + k) = (stepWordHigh m p.rst p.inFault p.inTimeout p.inValid).getLsbD k := by
    rw [← stepWord_high]
    simp [hk]
  obtain ⟨e0, e1, e2, e3, _, _⟩ := stepWordHigh_bits m p.rst p.inFault p.inTimeout p.inValid
  unfold pinsOfWord
  rw [stepWord_low, (hbits 3 (by omega)).trans e3, (hbits 2 (by omega)).trans e2, (hbits 1 (by omega)).trans e1,
    (hbits 0 (by omega)).trans e0]

end Sys2Proof

namespace Sys2Proof.Machine

/-- The check of the table's row CONSISTENCY is the one R100 writes. -/
theorem consistent_iff (s : State) : consistent s.mode s.hdr s.cnt = true ↔ s.Consistent := by
  cases hm : s.mode with
  | hunt => simp [State.Consistent, hm, consistent_hunt]
  | payload =>
    rw [consistent_payload]
    simp only [State.Consistent, hm, isHeader]
    cases payloadLen s.hdr <;> simp
  | fault => simp [State.Consistent, hm, consistent]
  | reserved => simp [State.Consistent, hm, consistent]

/-- A step performs the operation that the map in prose of R85 names. -/
theorem step_of_operation {s : State} {i : Instr}
    (h : operationOf s.mode (decodeEvent s.pins) s.hdr s.cnt = some i) : step s = exec i s.consumePins := by
  simp only [step, State.code, decode, decodeStep_eq, h]

/-- The pins of a run on a given input, one entry at a time. -/
theorem State.pins_feed_cons (s : State) (p : Pins) (ps : List Pins) : (s.feed (p :: ps)).pins = p := rfl

theorem State.consumePins_feed_cons (s : State) (p : Pins) (ps : List Pins) :
    (s.feed (p :: ps)).consumePins = s.feed ps := rfl

/-- A run of one step more begins with that step. -/
theorem runSteps_succ_of_step {s t : State} (n : Nat) (h : step s = .next t) : runSteps (n + 1) s = runSteps n t := by
  simp only [runSteps, h]

theorem trace_succ_of_step {s t : State} (n : Nat) (h : step s = .next t) :
    trace (n + 1) s = t.ports :: trace n t := by
  simp only [trace, h]

/-- The results of a run of one step more: what the first step reports, then the rest. -/
theorem results_succ_of_step {s t : State} (n : Nat) (h : step s = .next t) :
    results (n + 1) s = t.ports.result.toList ++ results n t := by
  unfold results
  rw [trace_succ_of_step n h, List.filterMap_cons]
  cases t.ports.result <;> rfl

/-- What the ports report of a state, in terms of its registers. -/
theorem State.result_ports (s : State) :
    s.ports.result =
      if s.outValid then some (.sample s.outHeader s.outData) else if s.outNoframe then some .noFrame else none := by
  unfold OutPorts.result State.ports
  cases s.outValid <;> cases s.outNoframe <;> rfl

/-- The event of the pins that offer a byte (R84). -/
theorem decodeEvent_bytePins (b : Byte) : decodeEvent (bytePins b) = .byte b := rfl

/-- The event of each token of a stream (R84). -/
theorem decodeEvent_tokenPins (t : Token) :
    decodeEvent (tokenPins t) =
      match t with
      | .byte b => .byte b
      | .idle => .idle
      | .timeout => .timeout
      | .fault => .fault
      | .protocol => .protocol
      | .reset => .reset := by
  cases t <;> rfl

end Sys2Proof.Machine
end

