-- ==== Sys2Proof/Laws/Framer.lean ====
section
/-! SUPPORT. All that the two payload rows can do (R105, R106), and the row a step in each situation performs. -/

namespace Sys2Proof.Machine

/-- PAYLOAD_CAPTURE with the index in range. -/
theorem execPayloadCapture_of_lt {s : State} (h : s.cnt.toNat < 5) (b : Byte) :
    execPayloadCapture b s =
      .next { s.clearOutputs with pbuf := s.pbuf.set s.cnt.toNat b h, cnt := s.cnt + 1 } := by
  unfold execPayloadCapture
  rw [State.pbufWrite_of_lt h]
  rfl

theorem execPayloadCapture_of_ge {s : State} (h : 5 ≤ s.cnt.toNat) (b : Byte) :
    execPayloadCapture b s = .next (s.clearOutputs.raiseFault .consistency) := by
  unfold execPayloadCapture
  rw [State.pbufWrite_of_ge h]

/-- PAYLOAD_FINAL with the index in range and a header of the table. -/
theorem execPayloadFinal_of_isHeader {s : State} (h : s.cnt.toNat < 5) (hh : isHeader s.hdr = true) (b : Byte) :
    execPayloadFinal b s =
      .next { s.clearOutputs with pbuf := s.pbuf.set s.cnt.toNat b h, outValid := true, outHeader := s.hdr,
                                  outData := decodeByHeader s.hdr (s.pbuf.set s.cnt.toNat b h), mode := .hunt,
                                  cnt := 0 } := by
  unfold execPayloadFinal
  rw [State.pbufWrite_of_lt h]
  simp only [State.clearOutputs_hdr, State.clearOutputs_pbuf, decodeFrame_of_isHeader hh]
  rfl

theorem execPayloadFinal_of_defect {s : State} (h : 5 ≤ s.cnt.toNat ∨ isHeader s.hdr = false) (b : Byte) :
    execPayloadFinal b s = .next (s.clearOutputs.raiseFault .consistency) := by
  unfold execPayloadFinal
  by_cases hc : s.cnt.toNat < 5
  · have hh : isHeader s.hdr = false := h.resolve_left (Nat.not_le.mpr hc)
    rw [State.pbufWrite_of_lt hc]
    simp only [State.clearOutputs_hdr, decodeFrame_of_not_isHeader hh]
  · rw [State.pbufWrite_of_ge (Nat.le_of_not_lt hc)]

end Sys2Proof.Machine

namespace Sys2Proof

/-! ### The map in prose of R85, one situation at a time -/

theorem operationOf_reset (m : Mode) (hdr : Byte) (cnt : Count) : operationOf m .reset hdr cnt = some .evReset := rfl

theorem operationOf_fault {ev : Event} (h : ev ≠ .reset) (hdr : Byte) (cnt : Count) :
    operationOf .fault ev hdr cnt = some .faultAbsorb := by
  simp [operationOf, h]

theorem operationOf_reserved {ev : Event} (h : ev ≠ .reset) (hdr : Byte) (cnt : Count) :
    operationOf .reserved ev hdr cnt = some .modeReserved := by
  simp [operationOf, h]

theorem operationOf_inconsistent {m : Mode} {ev : Event} {hdr : Byte} {cnt : Count} (h : ev ≠ .reset)
    (hm : m = .hunt ∨ m = .payload) (hc : consistent m hdr cnt = false) :
    operationOf m ev hdr cnt = some .consistency := by
  obtain rfl | rfl := hm <;> simp [operationOf, h, hc]

/-- The row of an event in HUNT mode with `cnt = 0`. -/
theorem operationOf_hunt (ev : Event) (hdr : Byte) :
    operationOf .hunt ev hdr 0 =
      match ev with
      | .reset => some .evReset
      | .fault => some .evFault
      | .protocol => some .evProtocol
      | .timeout => some .huntTimeout
      | .idle => some .evIdle
      | .byte b =>
        if b = 0xAA then some .huntHeaderAA
        else if b = 0xBB then some .huntHeaderBB
        else if b = 0xCC then some .huntHeaderCC
        else some (.huntNoise b) := by
  cases ev <;> simp [operationOf, consistent]

/-- The row of an event in PAYLOAD mode in a consistent state. -/
theorem operationOf_payload {hdr : Byte} {cnt : Count} {n : Nat} (hn : payloadLen hdr = some n) (hc : cnt.toNat < n)
    (ev : Event) :
    operationOf .payload ev hdr cnt =
      match ev with
      | .reset => some .evReset
      | .fault => some .evFault
      | .protocol => some .evProtocol
      | .timeout => some .payloadTruncate
      | .idle => some .evIdle
      | .byte b => if cnt.toNat + 1 < n then some (.payloadCapture b) else some (.payloadFinal b) := by
  cases ev <;> simp [operationOf, consistent, RowCondition.holds, hn, hc]

end Sys2Proof
end

