-- ==== Sys2Proof/Laws/Inversion.lean ====
section
/-! SUPPORT. Everything one step can do, said once: twelve cases, each with the guards of its rule. Invariants and the
rules about every step follow from it without unfolding the step. -/

namespace Sys2Proof.Machine

theorem consistent_of_hunt {s : State} (hm : s.mode = .hunt) (hc : s.Consistent) : s.cnt = 0 := hc.2.1 hm

theorem consistent_of_payload {s : State} (hm : s.mode = .payload) (hc : s.Consistent) :
    ∃ n, payloadLen s.hdr = some n ∧ s.cnt.toNat < n := by
  have h := (consistent_iff s).mpr hc
  rw [hm] at h
  exact (consistent_payload _ _).mp h

theorem payloadLen_le_five {h : Byte} {n : Nat} (hn : payloadLen h = some n) : n ≤ 5 := payloadLen_le_maxPayload hn

theorem isHeader_of_payloadLen {h : Byte} {n : Nat} (hn : payloadLen h = some n) : isHeader h = true := by
  simp [isHeader, hn]

/-- A payload byte that is not the last (R105), through the table. -/
theorem step_capture {s : State} {n : Nat} {b : Byte} (hm : s.mode = .payload) (hn : payloadLen s.hdr = some n)
    (hc : s.cnt.toNat + 1 < n) (hev : decodeEvent s.pins = .byte b) (h5 : s.cnt.toNat < 5) :
    step s = .next { s.consumePins.clearOutputs with pbuf := s.pbuf.set s.cnt.toNat b h5, cnt := s.cnt + 1 } := by
  have hop := operationOf_payload hn (Nat.lt_of_succ_lt hc) (.byte b)
  simp only [hc, if_true] at hop
  rw [step_of_operation (i := .payloadCapture b) (by rw [hm, hev]; exact hop)]
  exact execPayloadCapture_of_lt (s := s.consumePins) h5 b

/-- The last payload byte (R106), through the table. -/
theorem step_final {s : State} {b : Byte} (hm : s.mode = .payload) (hn : payloadLen s.hdr = some (s.cnt.toNat + 1))
    (hev : decodeEvent s.pins = .byte b) (h5 : s.cnt.toNat < 5) :
    step s = .next { s.consumePins.clearOutputs with
      pbuf := s.pbuf.set s.cnt.toNat b h5, outValid := true, outHeader := s.hdr,
      outData := decodeByHeader s.hdr (s.pbuf.set s.cnt.toNat b h5), mode := .hunt, cnt := 0 } := by
  have hop := operationOf_payload hn (Nat.lt_succ_self _) (.byte b)
  simp only [Nat.lt_irrefl, if_false] at hop
  rw [step_of_operation (i := .payloadFinal b) (by rw [hm, hev]; exact hop)]
  exact execPayloadFinal_of_isHeader (s := s.consumePins) h5 (isHeader_of_payloadLen hn) b

/-- The cases of a step, by the rule that performs it. `P` is what is to be shown of the next state. -/
theorem step_cases (s : State) (P : State → Prop)
    (reset : decodeEvent s.pins = .reset → P s.consumePins.resetRegisters)
    (absorb : decodeEvent s.pins ≠ .reset → s.mode = .fault → P s.consumePins.clearOutputs)
    (inconsistent : decodeEvent s.pins ≠ .reset → s.mode ≠ .fault → ¬ s.Consistent →
      P (s.consumePins.clearOutputs.raiseFault .consistency))
    (sourceFault : s.mode ≠ .fault → s.Consistent → decodeEvent s.pins = .fault →
      P (s.consumePins.clearOutputs.raiseFault .source))
    (protocolFault : s.mode ≠ .fault → s.Consistent → decodeEvent s.pins = .protocol →
      P (s.consumePins.clearOutputs.raiseFault .protocol))
    (idle : s.mode ≠ .fault → s.Consistent → decodeEvent s.pins = .idle → P s.consumePins.clearOutputs)
    (huntTimeout : s.mode = .hunt → s.cnt = 0 → decodeEvent s.pins = .timeout →
      P s.consumePins.clearOutputs.noframe)
    (huntHeader : s.mode = .hunt → s.cnt = 0 → ∀ b, decodeEvent s.pins = .byte b → isHeader b = true →
      P (s.consumePins.clearOutputs.acceptHeader b))
    (huntNoise : s.mode = .hunt → s.cnt = 0 → ∀ b, decodeEvent s.pins = .byte b → isHeader b = false →
      P s.consumePins.clearOutputs)
    (truncate : s.mode = .payload → ∀ n, payloadLen s.hdr = some n → s.cnt.toNat < n →
      decodeEvent s.pins = .timeout → P s.consumePins.clearOutputs.noframe.toHunt)
    (capture : s.mode = .payload → ∀ n b, payloadLen s.hdr = some n → s.cnt.toNat + 1 < n →
      ∀ h5 : s.cnt.toNat < 5, decodeEvent s.pins = .byte b →
      P { s.consumePins.clearOutputs with pbuf := s.pbuf.set s.cnt.toNat b h5, cnt := s.cnt + 1 })
    (final : s.mode = .payload → ∀ b, payloadLen s.hdr = some (s.cnt.toNat + 1) →
      ∀ h5 : s.cnt.toNat < 5, decodeEvent s.pins = .byte b →
      P { s.consumePins.clearOutputs with
            pbuf := s.pbuf.set s.cnt.toNat b h5, outValid := true, outHeader := s.hdr,
            outData := decodeByHeader s.hdr (s.pbuf.set s.cnt.toNat b h5), mode := .hunt, cnt := 0 }) :
    ∃ t, step s = .next t ∧ P t := by
  by_cases he : decodeEvent s.pins = .reset
  · exact ⟨_, step_of_operation (by rw [he]; rfl), reset he⟩
  cases hm : s.mode with
  | fault => exact ⟨_, step_of_operation (by rw [hm]; exact operationOf_fault he _ _), absorb he hm⟩
  | reserved =>
    exact ⟨_, step_of_operation (by rw [hm]; exact operationOf_reserved he _ _),
      inconsistent he (by simp [hm]) (fun hc => hc.1 hm)⟩
  | hunt =>
    by_cases hc : s.Consistent
    · have h0 := consistent_of_hunt hm hc
      have hf : s.mode ≠ .fault := by simp [hm]
      have hop := operationOf_hunt (decodeEvent s.pins) s.hdr
      rw [← hm, ← h0] at hop
      cases hev : decodeEvent s.pins with
      | reset => exact absurd hev he
      | fault => exact ⟨_, step_of_operation (by rw [hop, hev]), sourceFault hf hc hev⟩
      | protocol => exact ⟨_, step_of_operation (by rw [hop, hev]), protocolFault hf hc hev⟩
      | idle => exact ⟨_, step_of_operation (by rw [hop, hev]), idle hf hc hev⟩
      | timeout => exact ⟨_, step_of_operation (by rw [hop, hev]), huntTimeout hm h0 hev⟩
      | byte b =>
        rw [hev] at hop
        simp only at hop
        split_ifs at hop with h1 h2 h3
        · subst h1
          exact ⟨_, step_of_operation (by rw [hev, hop]), huntHeader hm h0 _ hev rfl⟩
        · subst h2
          exact ⟨_, step_of_operation (by rw [hev, hop]), huntHeader hm h0 _ hev rfl⟩
        · subst h3
          exact ⟨_, step_of_operation (by rw [hev, hop]), huntHeader hm h0 _ hev rfl⟩
        · have hb : isHeader b = false := by
            rw [← Bool.not_eq_true, isHeader_iff]
            exact fun h => h.elim h1 (fun h => h.elim h2 h3)
          exact ⟨_, step_of_operation (by rw [hev, hop]), huntNoise hm h0 b hev hb⟩
    · have hc' : consistent s.mode s.hdr s.cnt = false := by
        rw [← Bool.not_eq_true, consistent_iff]
        exact hc
      exact ⟨_, step_of_operation (operationOf_inconsistent he (.inl hm) hc'), inconsistent he (by simp [hm]) hc⟩
  | payload =>
    by_cases hc : s.Consistent
    · obtain ⟨n, hn, hcn⟩ := consistent_of_payload hm hc
      have h5 := payloadLen_le_five hn
      have hf : s.mode ≠ .fault := by simp [hm]
      have hop := operationOf_payload hn hcn (decodeEvent s.pins)
      rw [← hm] at hop
      cases hev : decodeEvent s.pins with
      | reset => exact absurd hev he
      | fault => exact ⟨_, step_of_operation (by rw [hop, hev]), sourceFault hf hc hev⟩
      | protocol => exact ⟨_, step_of_operation (by rw [hop, hev]), protocolFault hf hc hev⟩
      | idle => exact ⟨_, step_of_operation (by rw [hop, hev]), idle hf hc hev⟩
      | timeout => exact ⟨_, step_of_operation (by rw [hop, hev]), truncate hm n hn hcn hev⟩
      | byte b =>
        have hlt : s.cnt.toNat < 5 := by omega
        by_cases h1 : s.cnt.toNat + 1 < n
        · exact ⟨_, step_capture hm hn h1 hev hlt, capture hm n b hn h1 hlt hev⟩
        · have hn' : payloadLen s.hdr = some (s.cnt.toNat + 1) := by rw [hn]; congr 1; omega
          exact ⟨_, step_final hm hn' hev hlt, final hm b hn' hlt hev⟩
    · have hc' : consistent s.mode s.hdr s.cnt = false := by
        rw [← Bool.not_eq_true, consistent_iff]
        exact hc
      exact ⟨_, step_of_operation (operationOf_inconsistent he (.inr hm) hc'), inconsistent he (by simp [hm]) hc⟩

/-- The same cases for a next state that is given. -/
theorem step_next_of_cases {s t : State} {P : State → Prop} (h : step s = .next t) (hP : ∃ u, step s = .next u ∧ P u) :
    P t := by
  obtain ⟨u, hu, hPu⟩ := hP
  rw [hu] at h
  cases h
  exact hPu

end Sys2Proof.Machine
end

