-- ==== Sys2Proof/Laws/PerInstr.lean ====
section
/-! SUPPORT. Facts about every operation as syntax, one lemma per row of the opcode table. -/

namespace Sys2Proof.Laws.RowMatch

/-- The encoder's code of a well-formed operation is matched by a row of the table that gives that operation back. -/
def Statement (i : Instr) : Prop :=
  i.wellFormed = true →
    match encode i with
    | .step S hdr cnt => ∃ r ∈ stepTable, r.hits S hdr cnt = true ∧ r.operation (S.extractLsb' 0 8) = i
    | .header h => ∃ r ∈ frameHeaderTable, (h &&& r.mask == r.value) = true ∧ r.operation h = i

theorem byteWord_low (b : Byte) :
    (byteWord 0x0100 b).extractLsb' 0 8 = b ∧ (byteWord 0x1100 b).extractLsb' 0 8 = b ∧
      (byteWord 0x0100 b &&& 0x3F00 == 0x0100) = true ∧ (byteWord 0x1100 b &&& 0x3F00 == 0x1100) = true := by
  revert b
  decide

theorem evReset : Statement .evReset := by
  simp only [Statement, encode]
  decide
theorem faultAbsorb : Statement .faultAbsorb := by
  simp only [Statement, encode]
  decide
theorem modeReserved : Statement .modeReserved := by
  simp only [Statement, encode]
  decide
theorem consistency : Statement .consistency := by
  simp only [Statement, encode]
  decide
theorem evFault : Statement .evFault := by
  simp only [Statement, encode]
  decide
theorem evProtocol : Statement .evProtocol := by
  simp only [Statement, encode]
  decide
theorem huntTimeout : Statement .huntTimeout := by
  simp only [Statement, encode]
  decide
theorem payloadTruncate : Statement .payloadTruncate := by
  simp only [Statement, encode]
  decide
theorem evIdle : Statement .evIdle := by
  simp only [Statement, encode]
  decide
theorem huntHeaderAA : Statement .huntHeaderAA := by
  simp only [Statement, encode]
  decide
theorem huntHeaderBB : Statement .huntHeaderBB := by
  simp only [Statement, encode]
  decide
theorem huntHeaderCC : Statement .huntHeaderCC := by
  simp only [Statement, encode]
  decide

theorem huntNoise (b : Byte) : Statement (.huntNoise b) := by
  intro _
  refine ⟨⟨0x3F00, 0x0100, .always, fun b => .huntNoise b⟩, by simp [stepTable, stepRowsByte], ?_, ?_⟩
  · simp only [StepRow.hits, RowCondition.holds, Bool.and_true]
    exact (byteWord_low b).2.2.1
  · exact congrArg Instr.huntNoise (byteWord_low b).1

theorem payloadCapture (b : Byte) : Statement (.payloadCapture b) := by
  intro _
  refine ⟨⟨0x3F00, 0x1100, .midPayload, fun b => .payloadCapture b⟩, by simp [stepTable, stepRowsByte], ?_, ?_⟩
  · rw [StepRow.hits, Bool.and_eq_true]
    exact ⟨(byteWord_low b).2.2.2, rfl⟩
  · exact congrArg Instr.payloadCapture (byteWord_low b).2.1

theorem payloadFinal (b : Byte) : Statement (.payloadFinal b) := by
  intro _
  refine ⟨⟨0x3F00, 0x1100, .lastPayload, fun b => .payloadFinal b⟩, by simp [stepTable, stepRowsByte], ?_, ?_⟩
  · rw [StepRow.hits, Bool.and_eq_true]
    exact ⟨(byteWord_low b).2.2.2, rfl⟩
  · exact congrArg Instr.payloadFinal (byteWord_low b).2.1

theorem hdrSensor : Statement .hdrSensor := by
  simp only [Statement, encode]
  decide
theorem hdrAction : Statement .hdrAction := by
  simp only [Statement, encode]
  decide
theorem hdrPin : Statement .hdrPin := by
  simp only [Statement, encode]
  decide

theorem hdrDefect (h : Byte) : Statement (.hdrDefect h) := by
  intro _
  refine ⟨⟨0x00, 0x00, fun h => .hdrDefect h⟩, by simp [frameHeaderTable], ?_, rfl⟩
  simp

end Sys2Proof.Laws.RowMatch
end

