-- ==== Sys2Proof/Tests/Slice0.lean ====
section
/-! SUPPORT. Tests of the model and witnesses of the hypotheses of its statements. Expected results come from the spec:
the masks of 30_encoding.md R85, the headers of R140 and the vectors of 95_test_vectors.md, named in the comments. -/

namespace Sys2Proof.Tests

open Sys2Proof Sys2Proof.Machine

/-! ### Small helpers -/

/-- A state with the given registers and the outputs of reset. -/
def block (m : Mode) (h : Byte) (n : Count) (p : Vector Byte 5) : State :=
  { State.reset with mode := m, hdr := h, cnt := n, pbuf := p }

/-- The next state of an outcome, if it is one. -/
def nextOf (o : Host.Outcome State Fault Refusal) : Option State :=
  match o with
  | .next t => some t
  | .fault _ => none
  | .refused _ => none

/-- The state after one step on one token of R84. -/
def after (s : State) (t : Token) : Option State := nextOf (step (s.driveStream [t]))

/-- What the ports show after one step on one token. -/
def shown (s : State) (t : Token) : Option OutPorts := (after s t).map State.ports

/-- The output word of a decoder's operation on a payload. -/
def decoded (i : Instr) (p : Vector Byte 5) : Option SampleWord :=
  (nextOf (exec i (block .payload 0xAA 2 p))).map State.outData

/-- A buffer in which nothing matters. -/
def empty : Vector Byte 5 := #v[0, 0, 0, 0, 0]

/-! ### Well-formedness: the ill-formed terms are refused -/

theorem test_wellFormed_noise_is_no_header :
    (Instr.huntNoise 0xAA).wellFormed = false ∧ (Instr.huntNoise 0xBB).wellFormed = false ∧
      (Instr.huntNoise 0xCC).wellFormed = false ∧ (Instr.huntNoise 0xAB).wellFormed = true := by decide

theorem test_wellFormed_defect_is_no_header :
    (Instr.hdrDefect 0xAA).wellFormed = false ∧ (Instr.hdrDefect 0xBB).wellFormed = false ∧
      (Instr.hdrDefect 0xCC).wellFormed = false ∧ (Instr.hdrDefect 0x13).wellFormed = true := by decide

/-! ### Decoding: words written out from R85 (mode, rst, in_fault, in_timeout, in_valid, in_data) -/

theorem test_decode_evReset :
    decodeStep 0b00_1_0_0_0_00000000 0x00 0 = some .evReset ∧
      decodeStep 0b10_1_1_1_1_10101010 0x13 7 = some .evReset := by decide
theorem test_decode_faultAbsorb : decodeStep 0b10_0_1_1_1_10101010 0x13 7 = some .faultAbsorb := by decide
theorem test_decode_modeReserved : decodeStep 0b11_0_0_1_0_00000000 0x00 0 = some .modeReserved := by decide
theorem test_decode_consistency :
    decodeStep 0b00_0_0_0_0_00000000 0x00 1 = some .consistency ∧
      decodeStep 0b01_0_1_0_0_00000000 0xAA 3 = some .consistency ∧
      decodeStep 0b01_0_0_0_0_00000000 0x13 0 = some .consistency := by decide
theorem test_decode_evFault :
    decodeStep 0b00_0_1_0_0_00000000 0x00 0 = some .evFault ∧
      decodeStep 0b01_0_1_1_1_11111111 0xCC 4 = some .evFault := by decide
theorem test_decode_evProtocol :
    decodeStep 0b00_0_0_1_1_10101010 0x00 0 = some .evProtocol ∧
      decodeStep 0b01_0_0_1_1_00000000 0xBB 2 = some .evProtocol := by decide
theorem test_decode_huntTimeout : decodeStep 0b00_0_0_1_0_00000000 0x00 0 = some .huntTimeout := by decide
theorem test_decode_payloadTruncate : decodeStep 0b01_0_0_1_0_00000000 0xCC 4 = some .payloadTruncate := by decide
theorem test_decode_evIdle :
    decodeStep 0b00_0_0_0_0_10101010 0x00 0 = some .evIdle ∧
      decodeStep 0b01_0_0_0_0_00000000 0xAA 2 = some .evIdle := by decide
theorem test_decode_huntHeaderAA : decodeStep 0b00_0_0_0_1_10101010 0x00 0 = some .huntHeaderAA := by decide
theorem test_decode_huntHeaderBB : decodeStep 0b00_0_0_0_1_10111011 0x00 0 = some .huntHeaderBB := by decide
theorem test_decode_huntHeaderCC : decodeStep 0b00_0_0_0_1_11001100 0x00 0 = some .huntHeaderCC := by decide
/-- F3: bytes that differ from a header in one bit are noise. -/
theorem test_decode_huntNoise :
    decodeStep 0b00_0_0_0_1_10101011 0x00 0 = some (.huntNoise 0xAB) ∧
      decodeStep 0b00_0_0_0_1_00101010 0x00 0 = some (.huntNoise 0x2A) ∧
      decodeStep 0b00_0_0_0_1_10111010 0x00 0 = some (.huntNoise 0xBA) ∧
      decodeStep 0b00_0_0_0_1_11001011 0x00 0 = some (.huntNoise 0xCB) := by decide
theorem test_decode_payloadCapture :
    decodeStep 0b01_0_0_0_1_10101010 0xAA 1 = some (.payloadCapture 0xAA) ∧
      decodeStep 0b01_0_0_0_1_00000101 0xCC 3 = some (.payloadCapture 0x05) := by decide
theorem test_decode_payloadFinal :
    decodeStep 0b01_0_0_0_1_11001100 0xBB 2 = some (.payloadFinal 0xCC) ∧
      decodeStep 0b01_0_0_0_1_01000000 0xCC 4 = some (.payloadFinal 0x40) := by decide
theorem test_decode_headers :
    decodeHeader 0b10101010 = some .hdrSensor ∧ decodeHeader 0b10111011 = some .hdrAction ∧
      decodeHeader 0b11001100 = some .hdrPin ∧ decodeHeader 0b00010011 = some (.hdrDefect 0x13) := by decide

/-- Table words decode by their width, and numbers that fit no format are refused. -/
theorem test_decodeTableWord :
    decodeTableWord 16 0x01CC = some .huntHeaderCC ∧ decodeTableWord 14 0x1105 = some (.payloadCapture 0x05) ∧
      decodeTableWord 8 0xCC = some .hdrPin ∧ decodeTableWord 16 0x4000 = none ∧ decodeTableWord 8 0x100 = none ∧
      decodeTableWord 24 0 = none := by decide

theorem test_decode_refuses_by_name :
    codeOfTableWord 16 0x4000 = .error .tooWide ∧ codeOfTableWord 24 0 = .error .noSuchFormat :=
  ⟨rfl, rfl⟩

theorem test_encode :
    encode .huntHeaderBB = .step 0b00_0_0_0_1_10111011 0 0 ∧
      encode (.payloadFinal 0x09) = .step 0b01_0_0_0_1_00001001 0xAA 2 ∧
      encode (.huntNoise 0xAB) = .step 0b00_0_0_0_1_10101011 0 0 ∧ encode .hdrPin = .header 0b11001100 := by decide

/-- The step word of R85 is laid out as its field table says. -/
theorem test_stepWord_layout :
    stepWord .payload ⟨false, true, false, true, 0xAA⟩ = 0b01_0_1_0_1_10101010 ∧
      modeOfWord 0b10_0_1_0_1_10101010 = .fault ∧
      pinsOfWord 0b01_1_0_1_0_00010011 = ⟨true, false, true, false, 0x13⟩ := by decide

/-! ### Placing a word: the next step after reset performs it -/

theorem test_place_huntHeaderCC :
    (nextOf (step (State.reset.withFetchWord 16 0x01CC))).map (fun t => (t.mode, t.hdr, t.cnt, t.input)) =
      some (.payload, 0xCC, 0, []) := by decide
theorem test_place_payloadCapture :
    (nextOf (step (State.reset.withFetchWord 16 0x1107))).map (fun t => (t.cnt, t.pbuf)) =
      some (1, #v[0x07, 0, 0, 0, 0]) := by decide
theorem test_place_hdrAction :
    (nextOf (step (State.reset.withFetchWord 8 0xBB))).map State.ports =
      some ⟨1, 0xBB, 0x000000000000, 0, 0⟩ := by decide

/-! ### One step, from the vectors of 95_test_vectors.md -/

/-- X1: reset from the middle of a frame leaves `hdr`. -/
theorem test_step_evReset :
    after (block .payload 0xCC 3 #v[2, 0x33, 0x33, 0, 0]) .reset =
      some (block .hunt 0xCC 0 #v[2, 0x33, 0x33, 0, 0]) := by decide
/-- X3: a byte offered with `rst` is not consumed. -/
theorem test_step_evReset_byte :
    nextOf (step (State.reset.feed [⟨true, false, false, true, 0xAA⟩])) = some State.reset := by decide
/-- F13: the first cause is kept. -/
theorem test_step_faultAbsorb :
    (after { block .fault 0x00 0 empty with faultCode := .protocol } .fault).map
      (fun t => (t.mode, t.faultCode)) = some (.fault, .protocol) := by decide
/-- F16: the check comes before TIMEOUT. -/
theorem test_step_modeReserved :
    (after (block .reserved 0x00 0 empty) .timeout).map (fun t => (t.mode, t.ports)) =
      some (.fault, ⟨0, 0x00, 0, 0, 2⟩) := by decide
/-- F14 and F15. -/
theorem test_step_consistency :
    (after (block .payload 0x13 0 empty) .idle).map (fun t => (t.mode, t.faultCode)) = some (.fault, .consistency) ∧
      (after (block .payload 0xAA 3 empty) (.byte 0x05)).map (fun t => (t.mode, t.faultCode)) =
        some (.fault, .consistency) := by decide
/-- F17 and step 3 of F6: the partial frame is frozen. -/
theorem test_step_evFault :
    (after (block .payload 0xAA 1 empty) .fault).map (fun t => (t.mode, t.faultCode)) = some (.fault, .source) ∧
      (after (block .payload 0xBB 1 empty) .fault).map (fun t => (t.hdr, t.cnt)) = some (0xBB, 1) := by decide
/-- F7. -/
theorem test_step_evProtocol :
    (after State.reset .protocol).map (fun t => (t.mode, t.ports)) = some (.fault, ⟨0, 0x00, 0, 0, 3⟩) := by decide
/-- F8. -/
theorem test_step_huntTimeout :
    (after State.reset .timeout).map (fun t => (t.mode, t.ports)) = some (.hunt, ⟨0, 0x00, 0, 1, 0⟩) := by decide
/-- Step 6 of F18: one byte short. -/
theorem test_step_payloadTruncate :
    (after (block .payload 0xCC 4 #v[1, 2, 3, 4, 0]) .timeout).map (fun t => (t.mode, t.cnt, t.ports)) =
      some (.hunt, 0, ⟨0, 0x00, 0, 1, 0⟩) := by decide
/-- F19: a byte without `in_valid` is not consumed. -/
theorem test_step_evIdle :
    nextOf (step (State.reset.feed [⟨false, false, false, false, 0x05⟩])) = some State.reset := by decide
/-- Step 1 of F1, F11 and F10. -/
theorem test_step_huntHeaderAA :
    (after State.reset (.byte 0xAA)).map (fun t => (t.mode, t.hdr, t.cnt)) = some (.payload, 0xAA, 0) := by decide
theorem test_step_huntHeaderBB :
    (after State.reset (.byte 0xBB)).map (fun t => (t.mode, t.hdr, t.cnt)) = some (.payload, 0xBB, 0) := by decide
theorem test_step_huntHeaderCC :
    (after State.reset (.byte 0xCC)).map (fun t => (t.mode, t.hdr, t.cnt)) = some (.payload, 0xCC, 0) := by decide
/-- Step 1 of F2. -/
theorem test_step_huntNoise : after State.reset (.byte 0x13) = some State.reset := by decide
/-- Step 2 of F9: a header-valued byte is payload. -/
theorem test_step_payloadCapture :
    (after (block .payload 0xAA 0 empty) (.byte 0xAA)).map (fun t => (t.mode, t.cnt, t.pbuf[0])) =
      some (.payload, 1, 0xAA) := by decide
/-- V1, step 4. -/
theorem test_step_payloadFinal_sensor :
    shown (block .payload 0xAA 2 #v[0x05, 0x07, 0, 0, 0]) (.byte 0x09) =
      some ⟨1, 0xAA, 0x090001070001, 0, 0⟩ := by decide
/-- V3, step 6. -/
theorem test_step_payloadFinal_pin :
    shown (block .payload 0xCC 4 #v[0x02, 0x33, 0x33, 0x53, 0]) (.byte 0x40) =
      some ⟨1, 0xCC, 0x004053333302, 0, 0⟩ := by decide

/-! ### The decoders, from the vectors S, A and P -/

/-- S3 and S7. -/
theorem test_hdrSensor :
    decoded .hdrSensor #v[0xF0, 0x80, 0x01, 0, 0] = some 0x010000800000 ∧
      decoded .hdrSensor #v[0x04, 0x00, 0x00, 0, 0] = some 0x000001000000 := by decide
/-- S2 and S4. -/
theorem test_hdrSensor_nibbles :
    decoded .hdrSensor #v[0xFF, 0xFF, 0xFF, 0, 0] = some 0xFF0101FF0101 ∧
      decoded .hdrSensor #v[0x0A, 0x00, 0x00, 0, 0] = some 0x000100000100 := by decide
/-- A4 and A8. -/
theorem test_hdrAction :
    decoded .hdrAction #v[0x80, 0x01, 0x00, 0, 0] = some 0x000000800100 ∧
      decoded .hdrAction #v[0x00, 0x0F, 0xF0, 0, 0] = some 0x000000000101 := by decide
/-- A2 and A9. -/
theorem test_hdrAction_masks :
    decoded .hdrAction #v[0x00, 0xEE, 0xEE, 0, 0] = some 0x000000000000 ∧
      decoded .hdrAction #v[0x00, 0xF0, 0x0F, 0, 0] = some 0x000101000000 := by decide
/-- P5 and P9. -/
theorem test_hdrPin :
    decoded .hdrPin #v[0x04, 0x01, 0x00, 0x80, 0x7F] = some 0x007F80000104 ∧
      decoded .hdrPin #v[0xCC, 0xAA, 0xBB, 0xCC, 0xAA] = some 0x00AACCBBAACC := by decide
/-- R144 and R176. -/
theorem test_hdrDefect :
    (nextOf (exec (.hdrDefect 0x13) (block .payload 0x13 0 empty))).map (fun t => (t.mode, t.hdr, t.ports)) =
      some (.fault, 0x13, ⟨0, 0x00, 0, 0, 2⟩) := by decide

/-- The readings of P1 to P8. -/
theorem test_voltageClass :
    voltageClass 0x00000000 = .zero ∧ voltageClass 0x7F800000 = .infinity ∧ voltageClass 0xFF800000 = .infinity ∧
      voltageClass 0x7FC00000 = .quietNaN ∧ voltageClass 0x7F800001 = .signallingNaN ∧
      voltageClass 0x80000000 = .zero ∧ voltageClass 0x00000001 = .subnormal ∧
      voltageClass 0x3F800000 = .normal := by decide
/-- V2's slots and their boolean view. -/
theorem test_actionBooleans :
    actionSlots 0x000101050101 = [1, 1, 5, 1, 1] ∧ actionBooleans 0x000101050101 = [true, true, true, true, true] ∧
      sensorSlots 0x090001070001 = [1, 0, 7, 1, 0, 9] := by decide
/-- V3: 3.3 and the frame of `PINF(02, 3.3)`; P8: 1.0. -/
theorem test_pinf :
    pinfFrame 0x02 33 10 = [.byte 0xCC, .byte 0x02, .byte 0x33, .byte 0x33, .byte 0x53, .byte 0x40] ∧
      nearestBinary32 1 1 = 0x3F800000 := by decide
/-- P7, R5 and R37. -/
theorem test_constants :
    nearestBinary32 1 (2 ^ 149) = 0x00000001 ∧ maxPayload = 5 ∧
      ({ State.reset with faultCode := .protocol }).ports.faultCode = 3 := by decide
/-- R51: the buffer has five slots. -/
theorem test_pbuf_bounds :
    State.reset.pbufRead 4 = some 0 ∧ State.reset.pbufRead 5 = none ∧ State.reset.pbufWrite 5 0x01 = none ∧
      (State.reset.pbufWrite 4 0x01).map (fun t => t.pbuf[4]) = some 0x01 := by decide

/-! ### Witnesses: the hypotheses of each statement can be met -/

theorem witness_PinsSelectOneEvent :
    (decodeEvent ⟨true, true, true, true, 0xAA⟩ = .reset ∧ decodeEvent ⟨false, true, true, true, 0xAA⟩ = .fault) ∧
      (decodeEvent ⟨false, false, true, true, 0xAA⟩ = .protocol ∧
        decodeEvent ⟨false, false, true, false, 0xAA⟩ = .timeout) ∧
      decodeEvent ⟨false, false, false, true, 0xAA⟩ = .byte 0xAA ∧
      decodeEvent ⟨false, false, false, false, 0xAA⟩ = .idle := by decide
theorem witness_DecodeOfEncodeIsIdentity :
    (Instr.huntNoise 0xCD).wellFormed = true ∧ (Instr.payloadFinal 0xFF).wellFormed = true ∧
      (Instr.hdrDefect 0x00).wellFormed = true := by decide
theorem witness_InDataReadOnlyForByte : ∀ b, decodeEvent ⟨false, false, true, true, 0xAA⟩ ≠ .byte b := by
  intro b h
  cases h
theorem witness_StepRunsDecodedOperation : decode (State.reset.driveStream [.byte 0xBB]).code = .ok .huntHeaderBB := rfl
theorem witness_PlacedStepWordIsPerformed : 8 < 16 ∧ decodeTableWord 16 0x1200 = some .payloadTruncate := by decide
theorem witness_PlacedHeaderByteIsDecoded :
    8 ≤ 8 ∧ decodeTableWord 8 0xCC = some .hdrPin ∧ isHeader (BitVec.ofNat 8 0xCC) = true := by decide
theorem witness_AbsorbNoiseIdleOnlyClearOutputs :
    (Instr.huntNoise 0x13 = .faultAbsorb ∨ (∃ b, Instr.huntNoise 0x13 = .huntNoise b) ∨
      Instr.huntNoise 0x13 = .evIdle) := .inr (.inl ⟨0x13, rfl⟩)
theorem witness_FaultRowsEnterFaultMode :
    (Instr.evProtocol = .evFault ∧ FaultCode.protocol = .source) ∨
      (Instr.evProtocol = .consistency ∧ FaultCode.protocol = .consistency) ∨
      (Instr.evProtocol = .modeReserved ∧ FaultCode.protocol = .consistency) ∨
      (Instr.evProtocol = .evProtocol ∧ FaultCode.protocol = .protocol) := by decide
theorem witness_HeaderRowsStartAFrame :
    (Instr.huntHeaderCC = .huntHeaderAA ∧ (0xCC : Byte) = 0xAA) ∨
      (Instr.huntHeaderCC = .huntHeaderBB ∧ (0xCC : Byte) = 0xBB) ∨
      (Instr.huntHeaderCC = .huntHeaderCC ∧ (0xCC : Byte) = 0xCC) := by decide
theorem witness_CaptureRowStoresOneByte : (block .payload 0xCC 4 empty).cnt.toNat < 5 := by decide
theorem witness_FinalRowRunsDecoderRow :
    (block .payload 0xCC 4 empty).cnt.toNat < 5 ∧ isHeader (block .payload 0xCC 4 empty).hdr = true := by decide
theorem witness_PayloadRowsDefectRaisesConsistency :
    5 ≤ (block .payload 0xCC 5 empty).cnt.toNat ∧ isHeader (block .payload 0x13 0 empty).hdr = false := by decide
theorem witness_DecodeDefectRaisesConsistency : isHeader 0xAB = false := by decide
theorem witness_SampleHoldsExactlyTheReadBits :
    decodeSensor 0x05 7 9 = decodeSensor 0xF5 7 9 ∧ decodeAction 5 0x11 0x11 = decodeAction 5 0xFF 0xFF := by decide
theorem witness_ResetStep : (State.reset.driveStream [.reset]).pins.rst = true := by decide
theorem witness_ResetDominatesAndIsIdempotent :
    ((⟨true, false, false, true, 0xAA⟩ : Pins).rst = true ∧ (⟨true, true, false, false, 0x00⟩ : Pins).rst = true) ∧
      (block .fault 0x00 0 empty).mode = .fault ∧ after (block .fault 0x00 0 empty) .reset = some State.reset ∧
      ([Token.reset, .reset].map tokenPins ≠ [] ∧ ∀ p ∈ [Token.reset, .reset].map tokenPins, p.rst = true) := by decide
theorem witness_FaultModeAbsorbs :
    (block .fault 0x00 0 empty).mode = .fault ∧
      decodeEvent ((block .fault 0x00 0 empty).driveStream [.byte 0xAA]).pins ≠ .reset := by decide
theorem witness_InconsistentStateFaults_reserved :
    decodeEvent (block .reserved 0x00 0 empty).pins ≠ .reset ∧ (block .reserved 0x00 0 empty).mode = .reserved := by
  decide
theorem witness_InconsistentStateFaults_hunt :
    decodeEvent (block .hunt 0x00 1 empty).pins ≠ .reset ∧ (block .hunt 0x00 1 empty).mode = .hunt ∧
      (block .hunt 0x00 1 empty).cnt ≠ 0 := by decide
theorem witness_InconsistentStateFaults_payload :
    decodeEvent (block .payload 0xBB 3 empty).pins ≠ .reset ∧ (block .payload 0xBB 3 empty).mode = .payload ∧
      payloadLen (block .payload 0xBB 3 empty).hdr = some 3 ∧ 3 ≤ (block .payload 0xBB 3 empty).cnt.toNat ∧
      isHeader (block .payload 0x13 0 empty).hdr = false := by decide

/-- A state in the middle of a frame, at the last payload byte. -/
def last : State := block .payload 0xCC 4 #v[1, 2, 3, 4, 0]

theorem witness_SourceFaultStep :
    let s := last.driveStream [.fault]
    (s.mode = .hunt ∨ s.mode = .payload) ∧ s.Consistent ∧ s.pins.rst = false ∧ s.pins.inFault = true := by decide
theorem witness_ProtocolFaultStep :
    let s := last.driveStream [.protocol]
    (s.mode = .hunt ∨ s.mode = .payload) ∧ s.Consistent ∧ s.pins.rst = false ∧ s.pins.inFault = false ∧
      s.pins.inTimeout = true ∧ s.pins.inValid = true := by decide
theorem witness_HuntTimeoutStep :
    let s := State.reset.driveStream [.timeout]
    s.mode = .hunt ∧ s.cnt = 0 ∧ decodeEvent s.pins = .timeout := by decide
theorem witness_PayloadTruncateStep :
    let s := last.driveStream [.timeout]
    s.mode = .payload ∧ payloadLen s.hdr = some 5 ∧ s.cnt.toNat < 5 ∧ decodeEvent s.pins = .timeout := by decide
theorem witness_IdleStep :
    let s := last.driveStream [.idle]
    (s.mode = .hunt ∨ s.mode = .payload) ∧ s.Consistent ∧ decodeEvent s.pins = .idle := by decide
theorem witness_HuntHeaderStep :
    let s := State.reset.driveStream [.byte 0xBB]
    s.mode = .hunt ∧ s.cnt = 0 ∧ decodeEvent s.pins = .byte 0xBB ∧ isHeader 0xBB = true := by decide
theorem witness_HuntNoiseStep :
    let s := State.reset.driveStream [.byte 0xBA]
    s.mode = .hunt ∧ s.cnt = 0 ∧ decodeEvent s.pins = .byte 0xBA ∧ isHeader 0xBA = false := by decide
theorem witness_PayloadCaptureStep :
    let s := (block .payload 0xAA 1 empty).driveStream [.byte 0xAA]
    s.mode = .payload ∧ payloadLen s.hdr = some 3 ∧ s.cnt.toNat + 1 < 3 ∧ decodeEvent s.pins = .byte 0xAA := by decide
theorem witness_PayloadFinalStep :
    let s := last.driveStream [.byte 0xAA]
    s.mode = .payload ∧ payloadLen s.hdr = some (s.cnt.toNat + 1) ∧ decodeEvent s.pins = .byte 0xAA := by decide

theorem witness_SensorFrameShowsSixSlots :
    let s := (block .payload 0xAA 2 #v[0x05, 0x07, 0, 0, 0]).driveStream [.byte 0x09]
    s.mode = .payload ∧ s.hdr = 0xAA ∧ s.cnt = 2 ∧ decodeEvent s.pins = .byte 0x09 := by decide
theorem witness_ActionFrameShowsFiveSlots :
    let s := (block .payload 0xBB 2 #v[0x05, 0x11, 0, 0, 0]).driveStream [.byte 0x11]
    s.mode = .payload ∧ s.hdr = 0xBB ∧ s.cnt = 2 ∧ decodeEvent s.pins = .byte 0x11 := by decide
theorem witness_PinFrameShowsPinAndVoltage :
    let s := last.driveStream [.byte 0x40]
    s.mode = .payload ∧ s.hdr = 0xCC ∧ s.cnt = 4 ∧ decodeEvent s.pins = .byte 0x40 := by decide

/-- A step with a sample shown, one with NoFrame, one with neither. -/
theorem witness_OutputsArePulses :
    (after last (.byte 5)).map (fun t => (t.outValid, t.outNoframe)) = some (true, false) ∧
      (after last .timeout).map (fun t => (t.outValid, t.outNoframe)) = some (false, true) ∧
      (after last .idle).map (fun t => (t.outValid, t.outNoframe)) = some (false, false) := by decide
/-- Steps that write `hdr`, a slot of the buffer, and `fault_code`. -/
theorem witness_RegistersHaveOnlyTheirWriters :
    (after State.reset (.byte 0xAA)).map (fun t => decide (t.hdr = 0x00)) = some false ∧
      (after last (.byte 5)).map (fun t => decide (t.pbuf[4]? = last.pbuf[4]?)) = some false ∧
      (after last .fault).map (fun t => decide (t.faultCode = .none)) = some false := by decide
theorem witness_EachStepConsumesOneInput :
    nextOf (step (State.reset.driveStream [.byte 0x13, .idle])) = some (State.reset.driveStream [.idle]) := by decide
/-- Each of the four changes of mode happens. -/
theorem witness_ModeChangesAreTheRuleR119 :
    (after State.reset (.byte 0xAA)).map State.mode = some .payload ∧
      (after last (.byte 5)).map State.mode = some .hunt ∧ (after last .protocol).map State.mode = some .fault ∧
      (after (block .fault 0x00 0 empty) .reset).map State.mode = some .hunt := by decide
/-- Reset, the halted block, and the three causes, each with the causes below it asserted too. -/
theorem witness_FaultPriority :
    (nextOf (step ((block .reserved 0x00 0 empty).feed [⟨true, true, true, true, 0⟩]))).map State.faultCode =
        some .none ∧
      (nextOf (step ({ block .fault 0x00 1 empty with faultCode := .protocol }.feed
        [⟨false, true, true, true, 0⟩]))).map State.faultCode = some .protocol ∧
      (nextOf (step ((block .hunt 0x00 1 empty).feed [⟨false, true, true, true, 0⟩]))).map State.faultCode =
        some .consistency ∧
      (nextOf (step (last.feed [⟨false, true, true, true, 0⟩]))).map State.faultCode = some .source ∧
      (nextOf (step (last.feed [⟨false, false, true, true, 0⟩]))).map State.faultCode = some .protocol := by decide
theorem witness_StepKeepsInvariants : Inv last ∧ ∃ t, step (last.driveStream [.byte 5]) = .next t :=
  ⟨⟨by decide, by decide, fun _ => ⟨5, by decide⟩, by decide, by decide, by decide⟩, _, rfl⟩
theorem witness_BufferHoldsBytesInArrivalOrder :
    State.reset.mode = .hunt ∧ State.reset.cnt = 0 ∧ payloadLen 0xAA = some 3 ∧ [(0x05 : Byte), 0x07].length < 3 ∧
      eventsWithoutIdle ([.byte 0xAA, .idle, .byte 0x05, .byte 0x07].map tokenPins) =
        .byte 0xAA :: [0x05, 0x07].map .byte := by decide
theorem witness_FaultIsStickyUntilReset :
    (block .fault 0x00 0 empty).mode = .fault ∧
      ∀ p ∈ [Token.fault, .timeout, .byte 0xAA].map tokenPins, p.rst = false := by decide
theorem witness_PartialFrameWaitsWhileIdle :
    last.mode = .payload ∧ last.Consistent ∧ ∀ p ∈ [Token.idle, .idle].map tokenPins, decodeEvent p = .idle := by decide
theorem witness_StaleBytesNeverReachOutputs : State.reset.mode = .hunt ∧ State.reset.cnt = 0 := by decide
/-- V6. -/
theorem witness_IdleStepsChangeNoResult :
    State.reset.Consistent ∧
      eventsWithoutIdle ([.byte 0xAA, .byte 0x05, .byte 0x07, .byte 0x09].map tokenPins) =
        eventsWithoutIdle
          ([.byte 0xAA, .idle, .idle, .byte 0x05, .idle, .byte 0x07, .byte 0x09].map tokenPins) := by decide
/-- V5. -/
theorem witness_FrameAttemptGivesItsSample :
    State.reset.mode = .hunt ∧ State.reset.cnt = 0 ∧
      (∀ b ∈ [(0x42 : Byte), 0x00, 0x01, 0x02], isHeader b = false) ∧
      payloadLen 0xAA = some [(0x0F : Byte), 0x10, 0x20].length ∧
      eventsWithoutIdle ([.byte 0x42, .byte 0x00, .byte 0x01, .byte 0x02, .byte 0xAA, .byte 0x0F, .byte 0x10,
          .byte 0x20].map tokenPins) =
        [0x42, 0x00, 0x01, 0x02].map .byte ++ .byte 0xAA :: [0x0F, 0x10, 0x20].map .byte := by decide
/-- V4. -/
theorem witness_CutFrameAttemptGivesNoFrame :
    State.reset.mode = .hunt ∧ State.reset.cnt = 0 ∧ (∀ b ∈ ([] : List Byte), isHeader b = false) ∧
      payloadLen 0xAA = some 3 ∧ [(0x05 : Byte), 0x07].length < 3 ∧
      eventsWithoutIdle ([.byte 0xAA, .byte 0x05, .byte 0x07, .timeout].map tokenPins) =
        ([] : List Byte).map .byte ++ [0xAA, 0x05, 0x07].map .byte ++ [.timeout] := by decide
theorem witness_CutFrameAttemptGivesNoFrame_hunting :
    (∀ b ∈ [(0x13 : Byte)], isHeader b = false) ∧
      eventsWithoutIdle ([.byte 0x13, .timeout].map tokenPins) =
        [(0x13 : Byte)].map .byte ++ ([] : List Byte).map .byte ++ [.timeout] := by decide
theorem witness_BlockRefinesReadFrame :
    State.reset.mode = .hunt ∧ State.reset.cnt = 0 ∧
      (∀ p ∈ [Token.byte 0xAA, .byte 0x05, .timeout, .byte 0x13].map tokenPins,
        ordinaryEvent (decodeEvent p) = true) ∧
      readFrames 4 ([Token.byte 0xAA, .byte 0x05, .timeout, .byte 0x13].map (fun t => decodeEvent (tokenPins t))) =
        [.noFrame] := by decide

end Sys2Proof.Tests
end

section
/-! The header table of R4 as a relation between a header byte and its payload length, and the obligation about it. -/

namespace Sys2Proof

theorem payloadLen_eq_some_iff (h : Byte) (n : Nat) :
    payloadLen h = some n ↔ (h = 0xAA ∧ n = 3) ∨ (h = 0xBB ∧ n = 3) ∨ (h = 0xCC ∧ n = 5) := by
  constructor
  · exact payloadLen_cases
  · rintro (⟨rfl, rfl⟩ | ⟨rfl, rfl⟩ | ⟨rfl, rfl⟩) <;> rfl

/-- Settles O1, by the two characterisations of the header table: its entries and its keys. -/
theorem headerTableHasThreeEntries : Obligations.HeaderTableHasThreeEntries :=
  ⟨payloadLen_eq_some_iff, isHeader_iff⟩

end Sys2Proof
end

section
/-! The step in each situation, as the next state that the rule of R100 for it gives. PAYLOAD_CAPTURE and PAYLOAD_FINAL
are `step_capture` and `step_final`. -/

namespace Sys2Proof.Machine

theorem step_reset {s : State} (he : decodeEvent s.pins = .reset) : step s = .next s.consumePins.resetRegisters :=
  step_of_operation (i := .evReset) (by rw [he, operationOf_reset])

theorem step_absorb {s : State} (he : decodeEvent s.pins ≠ .reset) (hm : s.mode = .fault) :
    step s = .next s.consumePins.clearOutputs :=
  step_of_operation (i := .faultAbsorb) (by rw [hm, operationOf_fault he])

/-- The check of R112, in all three modes that it covers. -/
theorem step_inconsistent {s : State} (he : decodeEvent s.pins ≠ .reset) (hm : s.mode ≠ .fault) (hc : ¬ s.Consistent) :
    step s = .next (s.consumePins.clearOutputs.raiseFault .consistency) := by
  by_cases hr : s.mode = .reserved
  · exact step_of_operation (i := .modeReserved) (by rw [hr, operationOf_reserved he])
  · have hc' : consistent s.mode s.hdr s.cnt = false := Bool.eq_false_iff.mpr (mt (consistent_iff s).mp hc)
    exact step_of_operation (i := .consistency) (by simp [operationOf, he, hm, hr, hc'])

/-- Past the checks of R100 the event alone selects the row, but for TIMEOUT and BYTE, which also depend on the mode. -/
theorem operationOf_consistent {s : State} (hm : s.mode ≠ .fault) (hc : s.Consistent) :
    operationOf s.mode .fault s.hdr s.cnt = some .evFault ∧
      operationOf s.mode .protocol s.hdr s.cnt = some .evProtocol ∧
      operationOf s.mode .idle s.hdr s.cnt = some .evIdle := by
  have hchk := (consistent_iff s).mpr hc
  obtain ⟨hr, -, -⟩ := hc
  simp [operationOf, hm, hr, hchk]

theorem step_sourceFault {s : State} (hm : s.mode ≠ .fault) (hc : s.Consistent) (he : decodeEvent s.pins = .fault) :
    step s = .next (s.consumePins.clearOutputs.raiseFault .source) := by
  obtain ⟨hop, -, -⟩ := operationOf_consistent hm hc
  exact step_of_operation (i := .evFault) (he ▸ hop)

theorem step_protocolFault {s : State} (hm : s.mode ≠ .fault) (hc : s.Consistent)
    (he : decodeEvent s.pins = .protocol) : step s = .next (s.consumePins.clearOutputs.raiseFault .protocol) := by
  obtain ⟨-, hop, -⟩ := operationOf_consistent hm hc
  exact step_of_operation (i := .evProtocol) (he ▸ hop)

theorem step_idle {s : State} (hm : s.mode ≠ .fault) (hc : s.Consistent) (he : decodeEvent s.pins = .idle) :
    step s = .next s.consumePins.clearOutputs := by
  obtain ⟨-, -, hop⟩ := operationOf_consistent hm hc
  exact step_of_operation (i := .evIdle) (he ▸ hop)

theorem step_huntTimeout {s : State} (hm : s.mode = .hunt) (h0 : s.cnt = 0) (he : decodeEvent s.pins = .timeout) :
    step s = .next s.consumePins.clearOutputs.noframe :=
  step_of_operation (i := .huntTimeout) (by rw [hm, h0, he, operationOf_hunt])

theorem step_huntHeader {s : State} {b : Byte} (hm : s.mode = .hunt) (h0 : s.cnt = 0)
    (he : decodeEvent s.pins = .byte b) (hb : isHeader b = true) :
    step s = .next (s.consumePins.clearOutputs.acceptHeader b) := by
  have hop : operationOf s.mode (decodeEvent s.pins) s.hdr s.cnt = operationOf .hunt (.byte b) s.hdr 0 := by
    rw [hm, h0, he]
  rw [operationOf_hunt] at hop
  obtain rfl | rfl | rfl := (isHeader_iff b).mp hb
  · exact step_of_operation (i := .huntHeaderAA) hop
  · exact step_of_operation (i := .huntHeaderBB) hop
  · exact step_of_operation (i := .huntHeaderCC) hop

theorem step_huntNoise {s : State} {b : Byte} (hm : s.mode = .hunt) (h0 : s.cnt = 0)
    (he : decodeEvent s.pins = .byte b) (hb : isHeader b = false) : step s = .next s.consumePins.clearOutputs := by
  have hne : ¬ (b = 0xAA ∨ b = 0xBB ∨ b = 0xCC) := mt (isHeader_iff b).mpr (by simp [hb])
  simp only [not_or] at hne
  obtain ⟨hAA, hBB, hCC⟩ := hne
  exact step_of_operation (i := .huntNoise b) (by
    rw [hm, h0, he, operationOf_hunt]
    simp only [if_neg hAA, if_neg hBB, if_neg hCC])

theorem step_truncate {s : State} {n : Nat} (hm : s.mode = .payload) (hn : payloadLen s.hdr = some n)
    (hc : s.cnt.toNat < n) (he : decodeEvent s.pins = .timeout) :
    step s = .next s.consumePins.clearOutputs.noframe.toHunt :=
  step_of_operation (i := .payloadTruncate) (by rw [hm, he, operationOf_payload hn hc])

/-- R36 (b) is what R100 checks in HUNT mode, and R36 (c) what it checks in PAYLOAD mode. -/
theorem consistent_of_hunt_cnt {s : State} (hm : s.mode = .hunt) (h0 : s.cnt = 0) : s.Consistent :=
  ⟨by simp [hm], fun _ => h0, by simp [hm]⟩

theorem consistent_of_payloadLen {s : State} {n : Nat} (hm : s.mode = .payload) (hn : payloadLen s.hdr = some n)
    (hc : s.cnt.toNat < n) : s.Consistent :=
  ⟨by simp [hm], by simp [hm], fun _ => ⟨isHeader_of_payloadLen hn, by simpa [hn] using hc⟩⟩

end Sys2Proof.Machine
end

section
/-! R36: the invariants that speak of one state, at reset and after every step. -/

namespace Sys2Proof.Machine

theorem payloadLen_pos {h : Byte} {n : Nat} (hn : payloadLen h = some n) : 0 < n := by
  obtain ⟨_, rfl⟩ | ⟨_, rfl⟩ | ⟨_, rfl⟩ := payloadLen_cases hn <;> decide

/-- With its outputs cleared a state keeps every invariant that it has (R101). -/
theorem Inv.consume_clear {s : State} (h : Inv s) : Inv s.consumePins.clearOutputs where
  modeLegal := h.modeLegal
  huntCount := h.huntCount
  payloadHeader := h.payloadHeader
  faultFlag := h.faultFlag
  oneResult := by simp
  quietOutputs _ := ⟨rfl, rfl⟩

/-- Fault entry gives the invariants, whatever the state was (R176). -/
theorem inv_clear_raiseFault (s : State) {c : FaultCode} (hc : c ≠ .none) : Inv (s.clearOutputs.raiseFault c) where
  modeLegal := by simp
  huntCount := by simp
  payloadHeader := by simp
  faultFlag := by simp [hc]
  oneResult := by simp
  quietOutputs _ := ⟨rfl, rfl⟩

/-- In HUNT and PAYLOAD mode no fault is recorded (R36 d). -/
theorem Inv.faultCode_eq_none {s : State} (h : Inv s) (hm : s.mode ≠ .fault) : s.faultCode = .none :=
  not_not.mp (mt h.faultFlag.mpr hm)

/-- What the invariants come to in HUNT mode. -/
theorem inv_of_hunt {s : State} (hm : s.mode = .hunt) (h0 : s.cnt = 0) (hf : s.faultCode = .none)
    (h1 : ¬ (s.outValid = true ∧ s.outNoframe = true))
    (hq : s.outValid = false → s.outHeader = 0x00 ∧ s.outData = 0) : Inv s where
  modeLegal := by simp [hm]
  huntCount _ := h0
  payloadHeader := by simp [hm]
  faultFlag := by simp [hm, hf]
  oneResult := h1
  quietOutputs := hq

theorem inv_resetWith (hdr : Byte) (pbuf : Vector Byte 5) (input : List Pins) :
    Inv (State.resetWith hdr pbuf input) :=
  inv_of_hunt rfl rfl rfl (by simp [State.resetWith]) fun _ => ⟨rfl, rfl⟩

/-- Settles O48: the values of R200 meet what the invariants ask in HUNT mode. -/
theorem resetStateHasInvariants : Obligations.ResetStateHasInvariants :=
  ⟨inv_resetWith, inv_resetWith _ _ _⟩

/-- What the invariants come to in a frame, in which no step shows NoFrame. -/
theorem inv_of_payload {s : State} {n : Nat} (hm : s.mode = .payload) (hn : payloadLen s.hdr = some n)
    (hc : s.cnt.toNat < n) (hf : s.faultCode = .none) (h1 : s.outNoframe = false)
    (hq : s.outValid = false → s.outHeader = 0x00 ∧ s.outData = 0) : Inv s where
  modeLegal := by simp [hm]
  huntCount := by simp [hm]
  payloadHeader _ := ⟨n, hn, hc⟩
  faultFlag := by simp [hm, hf]
  oneResult := by simp [h1]
  quietOutputs := hq

/-- The counter does not wrap within a frame (R24). -/
theorem cnt_succ_toNat {c : Count} (hc : c.toNat < 5) : (c + 1).toNat = c.toNat + 1 := by
  rw [BitVec.toNat_add]
  exact Nat.mod_eq_of_lt (by simp; omega)

/-- Settles O49, by the cases of the step: fault entry, cleared outputs, a return to HUNT mode, a byte of a frame. -/
theorem stepKeepsInvariants : Obligations.StepKeepsInvariants := by
  intro s t h hst
  apply step_next_of_cases hst
  apply step_cases
  case reset => exact fun _ => inv_resetWith _ _ _
  case absorb | idle | huntNoise =>
    intros
    exact h.consume_clear
  case inconsistent | sourceFault | protocolFault =>
    intros
    exact inv_clear_raiseFault _ (by decide)
  case huntTimeout =>
    exact fun hm h0 _ => inv_of_hunt hm h0 (h.faultCode_eq_none (by simp [hm])) (by simp) (by simp)
  case truncate =>
    exact fun hm _ _ _ _ => inv_of_hunt rfl rfl (h.faultCode_eq_none (by simp [hm])) (by simp) (by simp)
  case final =>
    exact fun hm _ _ _ _ => inv_of_hunt rfl rfl (h.faultCode_eq_none (by simp [hm])) (by simp) (by simp)
  case huntHeader =>
    intro hm _ b _ hb
    obtain ⟨n, hn⟩ := Option.isSome_iff_exists.mp hb
    exact inv_of_payload rfl hn (payloadLen_pos hn) (h.faultCode_eq_none (by simp [hm])) rfl (by simp)
  case capture =>
    intro hm n b hn hc h5 _
    exact inv_of_payload hm hn (lt_of_eq_of_lt (cnt_succ_toNat h5) hc) (h.faultCode_eq_none (by simp [hm])) rfl
      (by simp)

end Sys2Proof.Machine
end

section
/-! R27, R30, R82 and R23, R25, R26, R21: what a step shows, which registers it writes, and what
it takes of the input. -/

namespace Sys2Proof.Machine

/-- R27: `out_valid` is 1 exactly after the last payload byte of a frame. -/
theorem step_outValid_iff {s t : State} (h : step s = .next t) :
    t.outValid = true ↔
      s.mode = .payload ∧ payloadLen s.hdr = some (s.cnt.toNat + 1) ∧ ∃ b, decodeEvent s.pins = .byte b := by
  apply step_next_of_cases h
  apply step_cases
  case final => exact fun hm b hn _ he => iff_of_true rfl ⟨hm, hn, b, he⟩
  case inconsistent =>
    exact fun _ _ hc => iff_of_false (by simp) fun ⟨hm, hn, _⟩ => hc (consistent_of_payloadLen hm hn (by omega))
  case capture =>
    intro _ n b hn hc _ _
    exact iff_of_false (by simp) fun ⟨_, hn', _⟩ => by
      rw [hn, Option.some.injEq] at hn'
      omega
  all_goals
    intros
    exact iff_of_false (by simp) (by simp_all)

theorem step_outNoframe_iff {s t : State} (h : step s = .next t) :
    t.outNoframe = true ↔
      (s.mode = .hunt ∨ s.mode = .payload) ∧ s.Consistent ∧ decodeEvent s.pins = .timeout := by
  apply step_next_of_cases h
  apply step_cases
  case huntTimeout => exact fun hm h0 he => iff_of_true rfl ⟨.inl hm, consistent_of_hunt_cnt hm h0, he⟩
  case truncate => exact fun hm n hn hc he => iff_of_true rfl ⟨.inr hm, consistent_of_payloadLen hm hn hc, he⟩
  case absorb => exact fun _ hm => iff_of_false (by simp) fun ⟨hm', _⟩ => by simp [hm] at hm'
  case inconsistent => exact fun _ _ hc => iff_of_false (by simp) fun ⟨_, hc', _⟩ => hc hc'
  all_goals
    intros
    exact iff_of_false (by simp) (by simp_all)

/-- R82: without a sample the output word is zero, whatever the state before the step showed. -/
theorem step_quiet_without_sample {s t : State} (h : step s = .next t) :
    t.outValid = false → t.outHeader = 0x00 ∧ t.outData = 0 := by
  apply step_next_of_cases h
  apply step_cases
  case final => simp
  all_goals
    intros
    exact ⟨rfl, rfl⟩

/-- Settles O43, from the causes of the two pulses and the clearing of the output word. -/
theorem outputsArePulses : Obligations.OutputsArePulses := fun _ _ h =>
  ⟨step_outValid_iff h, step_outNoframe_iff h, step_quiet_without_sample h⟩

/-- R23: only the accepted header of R103 changes `hdr`. -/
theorem header_of_step_hdr_ne {s t : State} (h : step s = .next t) :
    t.hdr ≠ s.hdr → s.mode = .hunt ∧ isHeader t.hdr = true ∧ decodeEvent s.pins = .byte t.hdr := by
  apply step_next_of_cases h
  apply step_cases
  case huntHeader => exact fun hm _ b he hb _ => ⟨hm, hb, he⟩
  all_goals
    intros
    exact absurd rfl ‹_ ≠ _›

/-- A slot of a buffer that a write changed is the slot written (R51). -/
theorem eq_of_getElem?_set_ne {p : Vector Byte 5} {b : Byte} {k j : Nat} (hk : k < 5)
    (h : (p.set k b hk)[j]? ≠ p[j]?) : j = k ∧ (p.set k b hk)[j]? = some b := by
  obtain rfl | hkj := eq_or_ne k j
  · exact ⟨rfl, Vector.getElem?_set_self hk⟩
  · exact absurd (Vector.getElem?_set_ne hk hkj) h

/-- R25: only a payload byte changes the buffer, in slot `cnt`. -/
theorem byte_of_step_pbuf_ne {s t : State} (h : step s = .next t) :
    ∀ j : Nat, t.pbuf[j]? ≠ s.pbuf[j]? →
      s.mode = .payload ∧ j = s.cnt.toNat ∧ ∃ b, decodeEvent s.pins = .byte b ∧ t.pbuf[j]? = some b := by
  apply step_next_of_cases h
  apply step_cases
  case capture =>
    intro hm _ b _ _ h5 he j hj
    obtain ⟨hjk, hjb⟩ := eq_of_getElem?_set_ne h5 hj
    exact ⟨hm, hjk, b, he, hjb⟩
  case final =>
    intro hm b _ h5 he j hj
    obtain ⟨hjk, hjb⟩ := eq_of_getElem?_set_ne h5 hj
    exact ⟨hm, hjk, b, he, hjb⟩
  all_goals
    intros
    exact absurd rfl ‹_ ≠ _›

/-- R26: only fault entry and RESET change `fault_code`. -/
theorem cause_of_step_faultCode_ne {s t : State} (h : step s = .next t) :
    t.faultCode ≠ s.faultCode →
      (t.mode = .fault ∧ t.faultCode ≠ .none ∧ s.mode ≠ .fault) ∨
        (decodeEvent s.pins = .reset ∧ t.faultCode = .none) := by
  apply step_next_of_cases h
  apply step_cases
  case reset => exact fun he _ => .inr ⟨he, rfl⟩
  case inconsistent => exact fun _ hm _ _ => .inl ⟨rfl, by simp, hm⟩
  case sourceFault | protocolFault => exact fun hm _ _ _ => .inl ⟨rfl, by simp, hm⟩
  all_goals
    intros
    exact absurd rfl ‹_ ≠ _›

/-- Settles O44, one register at a time. -/
theorem registersHaveOnlyTheirWriters : Obligations.RegistersHaveOnlyTheirWriters := fun _ _ h =>
  ⟨header_of_step_hdr_ne h, fun j _ => byte_of_step_pbuf_ne h j, cause_of_step_faultCode_ne h⟩

/-- Settles O45: the pins are consumed before any row is performed, and no row writes the coming ones. -/
theorem eachStepConsumesOneInput : Obligations.EachStepConsumesOneInput := by
  intro s t h
  apply step_next_of_cases h
  apply step_cases <;> intros <;> rfl

end Sys2Proof.Machine
end

section
/-! R36 (c), second half: the bytes of the frame being read, as a list, and what a run of bytes and idle steps makes of
them. -/

namespace Sys2Proof.Machine

/-- `pbuf[0 .. cnt-1]`: the payload bytes of the frame being read (R36 c). -/
def State.taken (s : State) : List Byte := s.pbuf.toList.take s.cnt.toNat

/-- A byte written behind the first `k` slots extends them by itself. -/
theorem take_succ_toList_set (p : Vector Byte 5) (b : Byte) {k : Nat} (hk : k < 5) :
    (p.set k b hk).toList.take (k + 1) = p.toList.take k ++ [b] := by
  rw [List.take_add_one, Vector.toList_set, List.take_set_of_le (Nat.le_refl k)]
  simp [hk]

/-- A byte written to slot `cnt` and counted is the next one taken (R105). -/
theorem taken_of_write {s t : State} (h5 : s.cnt.toNat < 5) (b : Byte) (hcnt : t.cnt = s.cnt + 1)
    (hpbuf : t.pbuf = s.pbuf.set s.cnt.toNat b h5) : t.taken = s.taken ++ [b] := by
  rw [State.taken, hcnt, hpbuf, cnt_succ_toNat h5, take_succ_toList_set, State.taken]

/-- The block is in a frame with header `h` and has taken the bytes `bs` of it, and no more. -/
structure InFrame (h : Byte) (bs : List Byte) (s : State) : Prop where
  mode : s.mode = .payload
  hdr : s.hdr = h
  cnt : s.cnt.toNat = bs.length
  taken : s.taken = bs

/-- In a frame the slots below `cnt` are the bytes taken. -/
theorem InFrame.getElem?_pbuf {h : Byte} {bs : List Byte} {s : State} (hs : InFrame h bs s) {j : Nat}
    (hj : j < bs.length) : s.pbuf[j]? = bs[j]? := by
  calc
    s.pbuf[j]? = s.taken[j]? := by simp [State.taken, hs.cnt, hj]
    _ = bs[j]? := by rw [hs.taken]

theorem inFrame_acceptHeader (h : Byte) (s : State) : InFrame h [] (s.acceptHeader h) := ⟨rfl, rfl, rfl, rfl⟩

/-- A byte that is not the last extends the bytes taken (R105). -/
theorem InFrame.step_byte {h b : Byte} {bs : List Byte} {n : Nat} {s : State} (hs : InFrame h bs s)
    (hn : payloadLen h = some n) (hlt : bs.length + 1 < n) (he : decodeEvent s.pins = .byte b) :
    ∃ t, step s = .next t ∧ InFrame h (bs ++ [b]) t := by
  obtain ⟨hm, rfl, hcnt, htaken⟩ := hs
  rw [← hcnt] at hlt
  have h5 : s.cnt.toNat < 5 := by have := payloadLen_le_five hn; omega
  refine ⟨_, step_capture hm hn hlt he h5, hm, rfl, ?_, ?_⟩
  · simp only [cnt_succ_toNat h5, hcnt, List.length_append, List.length_singleton]
  · rw [taken_of_write h5 b rfl rfl, htaken]

theorem InFrame.step_idle {h : Byte} {bs : List Byte} {n : Nat} {s : State} (hs : InFrame h bs s)
    (hn : payloadLen h = some n) (hlt : bs.length < n) (he : decodeEvent s.pins = .idle) :
    ∃ t, step s = .next t ∧ InFrame h bs t := by
  obtain ⟨hm, rfl, hcnt, htaken⟩ := hs
  exact ⟨_, Machine.step_idle (by simp [hm]) (consistent_of_payloadLen hm hn (hcnt ▸ hlt)) he, hm, rfl, hcnt, htaken⟩

/-! ### Runs over an input -/

theorem eventsWithoutIdle_cons (p : Pins) (ps : List Pins) :
    eventsWithoutIdle (p :: ps) =
      if decodeEvent p = .idle then eventsWithoutIdle ps else decodeEvent p :: eventsWithoutIdle ps := by
  by_cases h : decodeEvent p = .idle <;> simp [eventsWithoutIdle, h]

/-- The steps after the first one of a run find the rest of the input. -/
theorem input_of_step {s t : State} {p : Pins} {ps : List Pins} (hi : s.input = p :: ps) (h : step s = .next t) :
    t.input = ps := by
  rw [eachStepConsumesOneInput s t h, hi, List.tail_cons]

theorem State.pins_of_input {s : State} {p : Pins} {ps : List Pins} (hi : s.input = p :: ps) : s.pins = p := by
  rw [State.pins, hi, List.headD_cons]

/-- Bytes offered in a frame that they do not complete are taken in arrival order. -/
theorem InFrame.run {h : Byte} {n : Nat} (hn : payloadLen h = some n) (ps : List Pins) :
    ∀ {s : State} {got bs : List Byte}, s.input = ps → InFrame h got s → (got ++ bs).length < n →
      eventsWithoutIdle ps = bs.map .byte → ∃ t, runSteps ps.length s = .next t ∧ InFrame h (got ++ bs) t := by
  induction ps with
  | nil =>
    intro s got bs _ hs _ hev
    obtain rfl : bs = [] := List.map_eq_nil_iff.mp hev.symm
    exact ⟨s, rfl, by rwa [List.append_nil]⟩
  | cons p ps ih =>
    intro s got bs hi hs hlt hev
    obtain rfl : s.pins = p := State.pins_of_input hi
    rw [eventsWithoutIdle_cons] at hev
    split_ifs at hev with hidle
    · obtain ⟨t, hst, ht⟩ := hs.step_idle hn (Nat.lt_of_le_of_lt (by simp) hlt) hidle
      obtain ⟨u, hrun, hu⟩ := ih (input_of_step hi hst) ht hlt hev
      exact ⟨u, (runSteps_succ_of_step _ hst).trans hrun, hu⟩
    · cases bs with
      | nil => cases hev
      | cons b bs =>
        obtain ⟨hbyte, hev⟩ := List.cons.inj hev
        rw [List.append_cons] at hlt ⊢
        obtain ⟨t, hst, ht⟩ := hs.step_byte hn (by simp at hlt; omega) hbyte
        obtain ⟨u, hrun, hu⟩ := ih (input_of_step hi hst) ht hlt hev
        exact ⟨u, (runSteps_succ_of_step _ hst).trans hrun, hu⟩

/-- From HUNT mode a header, then bytes that do not complete its frame, lead into that frame. -/
theorem inFrame_of_run {h : Byte} {n : Nat} {bs : List Byte} (hn : payloadLen h = some n) (hlt : bs.length < n)
    (ps : List Pins) :
    ∀ {s : State}, s.input = ps → s.mode = .hunt → s.cnt = 0 → eventsWithoutIdle ps = .byte h :: bs.map .byte →
      ∃ t, runSteps ps.length s = .next t ∧ InFrame h bs t := by
  induction ps with
  | nil =>
    intro s _ _ _ hev
    cases hev
  | cons p ps ih =>
    intro s hi hm h0 hev
    obtain rfl : s.pins = p := State.pins_of_input hi
    rw [eventsWithoutIdle_cons] at hev
    split_ifs at hev with hidle
    · have hst := step_idle (by simp [hm]) (consistent_of_hunt_cnt hm h0) hidle
      obtain ⟨u, hrun, hu⟩ := ih (input_of_step hi hst) hm h0 hev
      exact ⟨u, (runSteps_succ_of_step _ hst).trans hrun, hu⟩
    · obtain ⟨hbyte, hev⟩ := List.cons.inj hev
      have hst := step_huntHeader hm h0 hbyte (isHeader_of_payloadLen hn)
      obtain ⟨u, hrun, hu⟩ := InFrame.run hn ps (input_of_step hi hst) (inFrame_acceptHeader h _) hlt hev
      exact ⟨u, (runSteps_succ_of_step _ hst).trans hrun, hu⟩

/-- Settles O50, by following the run through HUNT mode to the header and then through the frame. -/
theorem bufferHoldsBytesInArrivalOrder : Obligations.BufferHoldsBytesInArrivalOrder := by
  intro s ps h n bs hm h0 hn hlt hev
  obtain ⟨t, hrun, ht⟩ := inFrame_of_run hn hlt ps (s := s.feed ps) rfl hm h0 hev
  exact ⟨t, hrun, ht.mode, ht.hdr, ht.cnt, fun _ hj => ht.getElem?_pbuf hj⟩

end Sys2Proof.Machine
end

section
/-! R36 and R116: two states that differ only in what no rule reads take steps that show the same. -/

namespace Sys2Proof.Machine

/-- The state with other bytes in `hdr` and the buffer. -/
def State.withFrame (h : Byte) (p : Vector Byte 5) (s : State) : State := { s with hdr := h, pbuf := p }

/-- Other contents of `hdr` and the buffer that the rules cannot tell from those of `s`: in PAYLOAD mode the header and
the bytes taken are the same. Outside PAYLOAD mode any will do. -/
def SameFrame (s : State) (h : Byte) (p : Vector Byte 5) : Prop :=
  s.mode = .payload → h = s.hdr ∧ (s.withFrame h p).taken = s.taken

theorem sameFrame_of_mode_ne {s : State} (hm : s.mode ≠ .payload) (h : Byte) (p : Vector Byte 5) : SameFrame s h p :=
  fun hm' => absurd hm' hm

/-- The decoder reads the payload bytes of the frame and nothing else of the buffer (R140). -/
theorem decodeByHeader_eq_sampleOf {h : Byte} {n : Nat} (hn : payloadLen h = some n) (p : Vector Byte 5) :
    decodeByHeader h p = sampleOf h (p.toList.take n) := by
  unfold decodeByHeader sampleOf
  obtain ⟨rfl, rfl⟩ | ⟨rfl, rfl⟩ | ⟨rfl, rfl⟩ := payloadLen_cases hn <;> simp

/-- The sample of a frame is that of the bytes taken and the last one (R106). -/
theorem decodeByHeader_lastByte {s : State} (hn : payloadLen s.hdr = some (s.cnt.toNat + 1)) (h5 : s.cnt.toNat < 5)
    (b : Byte) : decodeByHeader s.hdr (s.pbuf.set s.cnt.toNat b h5) = sampleOf s.hdr (s.taken ++ [b]) := by
  rw [decodeByHeader_eq_sampleOf hn, take_succ_toList_set, State.taken]

theorem State.consistent_withFrame {s : State} {h : Byte} {p : Vector Byte 5} (hs : SameFrame s h p) :
    (s.withFrame h p).Consistent ↔ s.Consistent := by
  have hh : s.mode = .payload → h = s.hdr := fun hm => (hs hm).1
  simp +contextual [State.Consistent, State.withFrame, hh]

/-- One step of two such states: they show the same, and the next states are such states again. -/
theorem step_withFrame {s : State} {h : Byte} {p : Vector Byte 5} (hs : SameFrame s h p) :
    ∃ t, step s = .next t ∧ ∃ h' p', step (s.withFrame h p) = .next (t.withFrame h' p') ∧ SameFrame t h' p' := by
  apply step_cases
  case reset => exact fun he => ⟨h, p, step_reset he, sameFrame_of_mode_ne (by simp) h p⟩
  case absorb => exact fun he hm => ⟨h, p, step_absorb he hm, hs⟩
  case inconsistent =>
    exact fun he hm hc =>
      ⟨h, p, step_inconsistent he hm (mt (State.consistent_withFrame hs).mp hc), sameFrame_of_mode_ne (by simp) h p⟩
  case sourceFault =>
    exact fun hm hc he =>
      ⟨h, p, step_sourceFault hm ((State.consistent_withFrame hs).mpr hc) he, sameFrame_of_mode_ne (by simp) h p⟩
  case protocolFault =>
    exact fun hm hc he =>
      ⟨h, p, step_protocolFault hm ((State.consistent_withFrame hs).mpr hc) he, sameFrame_of_mode_ne (by simp) h p⟩
  case idle => exact fun hm hc he => ⟨h, p, step_idle hm ((State.consistent_withFrame hs).mpr hc) he, hs⟩
  case huntTimeout => exact fun hm h0 he => ⟨h, p, step_huntTimeout hm h0 he, hs⟩
  case huntHeader => exact fun hm h0 b he hb => ⟨b, p, step_huntHeader hm h0 he hb, fun _ => ⟨rfl, rfl⟩⟩
  case huntNoise => exact fun hm h0 b he hb => ⟨h, p, step_huntNoise hm h0 he hb, hs⟩
  case truncate =>
    intro hm n hn hc he
    obtain ⟨rfl, -⟩ := hs hm
    exact ⟨_, p, step_truncate hm hn hc he, sameFrame_of_mode_ne (by simp) _ p⟩
  case capture =>
    intro hm n b hn hc h5 he
    obtain ⟨rfl, htaken⟩ := hs hm
    refine ⟨_, p.set s.cnt.toNat b h5, step_capture (s := s.withFrame s.hdr p) hm hn hc he h5, fun _ => ⟨rfl, ?_⟩⟩
    exact calc
      _ = (s.withFrame s.hdr p).taken ++ [b] := taken_of_write (s := s.withFrame s.hdr p) h5 b rfl rfl
      _ = s.taken ++ [b] := by rw [htaken]
      _ = _ := (taken_of_write (s := s) h5 b rfl rfl).symm
  case final =>
    intro hm b hn h5 he
    obtain ⟨rfl, htaken⟩ := hs hm
    have hdata : decodeByHeader s.hdr (p.set _ b h5) = decodeByHeader s.hdr (s.pbuf.set _ b h5) := calc
      _ = sampleOf s.hdr ((s.withFrame s.hdr p).taken ++ [b]) :=
        decodeByHeader_lastByte (s := s.withFrame s.hdr p) hn h5 b
      _ = sampleOf s.hdr (s.taken ++ [b]) := by rw [htaken]
      _ = _ := (decodeByHeader_lastByte hn h5 b).symm
    refine ⟨s.hdr, p.set s.cnt.toNat b h5, ?_, sameFrame_of_mode_ne (by simp) _ _⟩
    rw [← hdata]
    exact step_final (s := s.withFrame s.hdr p) hm hn he h5

theorem trace_withFrame (n : Nat) :
    ∀ {s : State} {h : Byte} {p : Vector Byte 5}, SameFrame s h p → trace n (s.withFrame h p) = trace n s := by
  induction n with
  | zero => exact fun _ => rfl
  | succ n ih =>
    intro s h p hs
    obtain ⟨t, hst, h', p', hst', ht⟩ := step_withFrame hs
    rw [trace_succ_of_step n hst, trace_succ_of_step n hst', ih ht]
    rfl

/-- Settles O53: outside PAYLOAD mode any header and buffer will do, and every step keeps the relation. -/
theorem staleBytesNeverReachOutputs : Obligations.StaleBytesNeverReachOutputs := fun n _ _ _ hm _ =>
  trace_withFrame n (sameFrame_of_mode_ne (by simp [hm]) _ _)

end Sys2Proof.Machine
end

section
/-! R51, R144, R176 and R53: the payload rows where no run leads them, and the assembly of a voltage. -/

namespace Sys2Proof.Machine

/-- Settles O17: on such a state neither row gets past the store or the decoder. -/
theorem payloadRowsDefectRaisesConsistency : Obligations.PayloadRowsDefectRaisesConsistency := by
  rintro s b i (⟨rfl, hcnt⟩ | ⟨rfl, hdefect⟩)
  · exact execPayloadCapture_of_ge hcnt b
  · exact execPayloadFinal_of_defect hdefect b

/-- Settles O18, by dropping from the concatenation, one at a time, the bytes that arrived before the one read. -/
theorem voltageAssemblyIsLittleEndian : Obligations.VoltageAssemblyIsLittleEndian := by
  intro b0 b1 b2 b3
  unfold le32
  refine ⟨BitVec.extractLsb'_append_eq_right, ?_, ?_, ?_⟩
  · rw [BitVec.extractLsb'_append_eq_of_le (by decide)]
    exact BitVec.extractLsb'_append_eq_right
  · rw [BitVec.extractLsb'_append_eq_of_le (by decide), BitVec.extractLsb'_append_eq_of_le (by decide)]
    exact BitVec.extractLsb'_append_eq_right
  · rw [BitVec.extractLsb'_append_eq_of_le (by decide), BitVec.extractLsb'_append_eq_of_le (by decide)]
    exact BitVec.extractLsb'_append_eq_left

end Sys2Proof.Machine
end

section
/-! Totality of the table of format `step` (R85): what a step word decodes to in terms of its own fields, and the
well-formedness of the operation. -/

namespace Sys2Proof

theorem isHeader_eq_false_iff (h : Byte) : isHeader h = false ↔ h ≠ 0xAA ∧ h ≠ 0xBB ∧ h ≠ 0xCC := by
  rw [← Bool.not_eq_true, isHeader_iff]
  simp only [not_or, ne_eq]

/-- Any step word selects its row by the mode and the event of its fields, since it is put together from them. -/
theorem decodeStep_eq_operationOf (S : StepWord) (hdr : Byte) (cnt : Count) :
    decodeStep S hdr cnt = operationOf (modeOfWord S) (decodeEvent (pinsOfWord S)) hdr cnt := by
  rw [← decodeStep_eq, stepWord_fields]

/-- A byte that is no header passes the three header rows of HUNT. -/
theorem operationOf_huntNoise {b : Byte} (hb : isHeader b = false) (hdr : Byte) :
    operationOf .hunt (.byte b) hdr 0 = some (.huntNoise b) := by
  obtain ⟨hAA, hBB, hCC⟩ := (isHeader_eq_false_iff b).mp hb
  rw [operationOf_hunt]
  exact (if_neg hAA).trans ((if_neg hBB).trans (if_neg hCC))

/-- The row of an event in HUNT mode has a well-formed operation: a byte past the three header rows is no header. -/
theorem operationOf_hunt_wellFormed (ev : Event) (hdr : Byte) :
    ∃ i, operationOf .hunt ev hdr 0 = some i ∧ i.wellFormed = true := by
  cases ev with
  | byte b =>
    cases hb : isHeader b with
    | false => exact ⟨.huntNoise b, operationOf_huntNoise hb hdr, by simp [Instr.wellFormed, hb]⟩
    | true => obtain rfl | rfl | rfl := (isHeader_iff b).mp hb <;> exact ⟨_, rfl, rfl⟩
  | _ => exact ⟨_, rfl, rfl⟩

/-- The row of an event in PAYLOAD mode in a consistent state has a well-formed operation: any byte is payload. -/
theorem operationOf_payload_wellFormed {hdr : Byte} {cnt : Count} {n : Nat} (hn : payloadLen hdr = some n)
    (hc : cnt.toNat < n) (ev : Event) : ∃ i, operationOf .payload ev hdr cnt = some i ∧ i.wellFormed = true := by
  rw [operationOf_payload hn hc]
  cases ev with
  | byte b =>
    by_cases hmid : cnt.toNat + 1 < n
    · exact ⟨.payloadCapture b, if_pos hmid, rfl⟩
    · exact ⟨.payloadFinal b, if_neg hmid, rfl⟩
  | _ => exact ⟨_, rfl, rfl⟩

/-- The map in prose of R85 is total, in the priority of R100: reset, the halted and the reserved mode, the check of
R112, and then the event by mode. -/
theorem operationOf_total (m : Mode) (ev : Event) (hdr : Byte) (cnt : Count) :
    ∃ i, operationOf m ev hdr cnt = some i ∧ i.wellFormed = true := by
  by_cases hr : ev = .reset
  · exact ⟨.evReset, hr ▸ operationOf_reset m hdr cnt, rfl⟩
  cases m with
  | fault => exact ⟨.faultAbsorb, operationOf_fault hr hdr cnt, rfl⟩
  | reserved => exact ⟨.modeReserved, operationOf_reserved hr hdr cnt, rfl⟩
  | hunt =>
    cases hc : consistent .hunt hdr cnt with
    | false => exact ⟨.consistency, operationOf_inconsistent hr (.inl rfl) hc, rfl⟩
    | true =>
      rw [(consistent_hunt hdr cnt).mp hc]
      exact operationOf_hunt_wellFormed ev hdr
  | payload =>
    cases hc : consistent .payload hdr cnt with
    | false => exact ⟨.consistency, operationOf_inconsistent hr (.inr rfl) hc, rfl⟩
    | true =>
      obtain ⟨n, hn, hlt⟩ := (consistent_payload hdr cnt).mp hc
      exact operationOf_payload_wellFormed hn hlt ev

/-- Settles O4, by the totality of the map in prose of R85, read at the fields of the word. -/
theorem everyStepWordHasARow : Obligations.EveryStepWordHasARow := fun S hdr cnt =>
  decodeStep_eq_operationOf S hdr cnt ▸ operationOf_total _ _ hdr cnt

end Sys2Proof
end

section
/-! Decode of encode, row by row. -/

namespace Sys2Proof

theorem decode_step {S : StepWord} {hdr : Byte} {cnt : Count} {i : Instr} (h : decodeStep S hdr cnt = some i) :
    decode (.step S hdr cnt) = .ok i := by
  simp only [decode, h]

theorem decode_header {h : Byte} {i : Instr} (hi : decodeHeader h = some i) : decode (.header h) = .ok i := by
  simp only [decode, hi]

/-- The encoder puts an operand where the step word has `in_data`: a byte word is the step word of the pins that offer
the byte. -/
theorem byteWord_eq_stepWord (m : Mode) (b : Byte) :
    byteWord (stepWord m (Machine.bytePins 0x00)) b = stepWord m (Machine.bytePins b) := by
  refine BitVec.eq_of_getLsbD_eq fun i hi => ?_
  have hpins (c : Byte) : stepWord m (Machine.bytePins c) = stepWordHigh m false false false true ++ c := rfl
  rw [byteWord, hpins, hpins, BitVec.getLsbD_or, BitVec.getLsbD_append, BitVec.getLsbD_append, BitVec.getLsbD_setWidth]
  by_cases h8 : i < 8
  · simp [h8, hi]
  · simp [h8, BitVec.getLsbD_of_ge b i (by omega)]

/-- The row of a word that carries a byte, in HUNT and in PAYLOAD mode. -/
theorem decodeStep_byteWord (m : Mode) (b hdr : Byte) (cnt : Count) :
    decodeStep (byteWord (stepWord m (Machine.bytePins 0x00)) b) hdr cnt = operationOf m (.byte b) hdr cnt := by
  rw [byteWord_eq_stepWord, decodeStep_eq, Machine.decodeEvent_bytePins]

theorem decode_encode_huntNoise {b : Byte} (hb : isHeader b = false) :
    decode (encode (.huntNoise b)) = .ok (.huntNoise b) :=
  decode_step ((decodeStep_byteWord .hunt b 0 0).trans (operationOf_huntNoise hb 0))

/-- A payload byte of a sensor frame is captured before the last of the three and decoded as the last. -/
theorem decode_payloadByte (b : Byte) {cnt : Count} (hc : cnt.toNat < 3) :
    decode (.step (byteWord 0x1100 b) 0xAA cnt) =
      .ok (if cnt.toNat + 1 < 3 then .payloadCapture b else .payloadFinal b) := by
  refine decode_step ((decodeStep_byteWord .payload b 0xAA cnt).trans ?_)
  rw [operationOf_payload (n := 3) rfl hc]
  exact (apply_ite some _ _ _).symm

theorem decode_encode_hdrDefect {h : Byte} (hh : isHeader h = false) :
    decode (encode (.hdrDefect h)) = .ok (.hdrDefect h) := by
  obtain ⟨hAA, hBB, hCC⟩ := (isHeader_eq_false_iff h).mp hh
  refine decode_header ?_
  rw [decodeHeader_eq, if_neg hAA, if_neg hBB, if_neg hCC]

/-- Settles O5, row by row: a row with a fixed code is decoded as it stands, and a row with an operand by what its byte
selects. -/
theorem decodeOfEncodeIsIdentity : Obligations.DecodeOfEncodeIsIdentity := by
  intro i hwf
  cases i with
  | huntNoise b => exact decode_encode_huntNoise (by simpa [Instr.wellFormed] using hwf)
  | payloadCapture b => exact decode_payloadByte b (cnt := 0) (by decide)
  | payloadFinal b => exact decode_payloadByte b (cnt := 2) (by decide)
  | hdrDefect h => exact decode_encode_hdrDefect (by simpa [Instr.wellFormed] using hwf)
  | _ => rfl

end Sys2Proof
end

section
/-! The pins and the step word in a step: what `in_data` can do (R71), and how a placed word comes to be performed. -/

namespace Sys2Proof.Machine

/-- Settles O2, by the order of the tests on the pins. -/
theorem pinsSelectOneEvent : Obligations.PinsSelectOneEvent := fun p =>
  ⟨fun hrst => by simp [decodeEvent, hrst],
    fun hrst hfault => by simp [decodeEvent, hrst, hfault],
    fun hrst hfault htimeout hvalid => by simp [decodeEvent, hrst, hfault, htimeout, hvalid],
    fun hrst hfault htimeout hvalid => by simp [decodeEvent, hrst, hfault, htimeout, hvalid],
    fun hrst hfault htimeout hvalid => by simp [decodeEvent, hrst, hfault, htimeout, hvalid],
    fun hrst hfault htimeout hvalid => by simp [decodeEvent, hrst, hfault, htimeout, hvalid]⟩

/-- Settles O3, by running both decoders on the words. -/
theorem wordsOfTheTableDecode : Obligations.WordsOfTheTableDecode := by
  unfold Obligations.WordsOfTheTableDecode
  decide

/-- Only the row BYTE of R70 hands `in_data` on. -/
theorem decodeEvent_inData {p : Pins} (hp : ∀ b, decodeEvent p ≠ .byte b) (d : Byte) :
    decodeEvent { p with inData := d } = decodeEvent p := by
  unfold decodeEvent at hp ⊢
  split_ifs at hp ⊢ with hrst hfault hprotocol htimeout hvalid
  · rfl
  · rfl
  · rfl
  · rfl
  · exact absurd rfl (hp p.inData)
  · rfl

/-- Of the coming pins a step sees the event of the first alone. -/
theorem step_feed_congr (s : State) {p q : Pins} (h : decodeEvent p = decodeEvent q) (rest : List Pins) :
    step (s.feed (p :: rest)) = step (s.feed (q :: rest)) := by
  obtain ⟨i, hq, -⟩ := operationOf_total s.mode (decodeEvent q) s.hdr s.cnt
  have hp : operationOf s.mode (decodeEvent p) s.hdr s.cnt = some i := h ▸ hq
  exact (step_of_operation (s := s.feed (p :: rest)) hp).trans (step_of_operation (s := s.feed (q :: rest)) hq).symm

/-- Settles O6: outside BYTE the event is the same, and a step sees no more of the pins. -/
theorem inDataReadOnlyForByte : Obligations.InDataReadOnlyForByte := fun s _ d rest hp =>
  step_feed_congr s (decodeEvent_inData hp d) rest

/-- Settles O7, by the definition of a step. -/
theorem stepRunsDecodedOperation : Obligations.StepRunsDecodedOperation := by
  intro s i h
  rw [step, h]
  rfl

@[simp] theorem State.placeStepWord_mode (S : StepWord) (s : State) : (s.placeStepWord S).mode = modeOfWord S := by
  unfold State.placeStepWord
  cases modeOfWord S <;> rfl

@[simp] theorem State.placeStepWord_pins (S : StepWord) (s : State) : (s.placeStepWord S).pins = pinsOfWord S := by
  unfold State.placeStepWord
  cases modeOfWord S <;> rfl

/-- The block samples the word that was placed, put together again from its fields. -/
theorem State.code_placeStepWord (S : StepWord) (s : State) :
    (s.placeStepWord S).code = .step S (s.placeStepWord S).hdr (s.placeStepWord S).cnt := by
  simp [State.code, stepWord_fields]

/-- Placing a word sets the registers that the row conditions read in its mode as the table word has them: with
`cnt = 0` HUNT does not depend on `hdr`, and FAULT and the reserved mode depend on neither register. -/
theorem operationOf_placeStepWord (S : StepWord) (s : State) (ev : Event) :
    operationOf (modeOfWord S) ev (s.placeStepWord S).hdr (s.placeStepWord S).cnt =
      operationOf (modeOfWord S) ev tableWordHdr tableWordCnt := by
  unfold State.placeStepWord
  cases modeOfWord S with
  | hunt => exact (operationOf_hunt ev s.hdr).trans (operationOf_hunt ev tableWordHdr).symm
  | payload => rfl
  | fault => rfl
  | reserved => rfl

theorem decode_code_placeStepWord (S : StepWord) (s : State) :
    decode (s.placeStepWord S).code = decode (.step S tableWordHdr tableWordCnt) := by
  simp only [State.code_placeStepWord, decode, decodeStep_eq_operationOf, operationOf_placeStepWord]

/-- Of more than 8 bits the table has step words alone, read with the registers of log entry 4. -/
theorem eq_step_of_codeOfTableWord {nbits w : Nat} {c : Code} (hbits : 8 < nbits)
    (h : codeOfTableWord nbits w = .ok c) : c = .step (BitVec.ofNat 14 w) tableWordHdr tableWordCnt := by
  rw [codeOfTableWord, if_neg (Nat.not_le.mpr hbits)] at h
  split_ifs at h
  exact (Except.ok.inj h).symm

/-- A table word decodes only through a code. -/
theorem code_of_decodeTableWord {nbits w : Nat} {i : Instr} (h : decodeTableWord nbits w = some i) :
    ∃ c, codeOfTableWord nbits w = .ok c ∧ decode c = .ok i := by
  unfold decodeTableWord at h
  split at h
  · next c hcode =>
    refine ⟨c, hcode, ?_⟩
    cases hd : decode c with
    | ok j =>
      rw [hd] at h
      exact congrArg Except.ok (Option.some.inj h)
    | error e =>
      rw [hd] at h
      cases h
  · cases h

/-- Settles O8: the placed state decodes the word as the table word is decoded, and a step performs what it decodes
(O7). -/
theorem placedStepWordIsPerformed : Obligations.PlacedStepWordIsPerformed := by
  intro s nbits w i hbits h
  obtain ⟨c, hcode, hdecode⟩ := code_of_decodeTableWord h
  obtain rfl := eq_step_of_codeOfTableWord hbits hcode
  have hplace : s.withFetchWord nbits w = s.placeStepWord (BitVec.ofNat 14 w) := by
    simp only [State.withFetchWord, hcode]
  rw [hplace]
  exact stepRunsDecodedOperation _ i ((decode_code_placeStepWord _ s).trans hdecode)

end Sys2Proof.Machine
end

section
/-! R100: the step through the opcode table is the chain of tests that the rule writes, and so a total function. -/

namespace Sys2Proof.Machine

/-! ### The arms of R100 -/

theorem stepR100_reset {s : State} {p : Pins} (he : decodeEvent p = .reset) : stepR100 s p = s.resetRegisters :=
  if_pos he

theorem stepR100_absorb {s : State} {p : Pins} (he : decodeEvent p ≠ .reset) (hm : s.mode = .fault) :
    stepR100 s p = s.clearOutputs :=
  (if_neg he).trans (if_pos hm)

theorem stepR100_inconsistent {s : State} {p : Pins} (he : decodeEvent p ≠ .reset) (hm : s.mode ≠ .fault)
    (hc : ¬ s.Consistent) : stepR100 s p = s.clearOutputs.raiseFault .consistency :=
  (if_neg he).trans ((if_neg hm).trans (if_pos hc))

/-- Past the checks the event decides. -/
theorem stepR100_dispatch {s : State} {p : Pins} {ev : Event} (he : decodeEvent p = ev) (hr : ev ≠ .reset)
    (hm : s.mode ≠ .fault) (hc : s.Consistent) : stepR100 s p = dispatchR100 ev s.clearOutputs := by
  subst he
  exact (if_neg hr).trans ((if_neg hm).trans (if_neg (not_not.mpr hc)))

theorem stepR100_dispatch_hunt {s : State} {p : Pins} {ev : Event} (he : decodeEvent p = ev) (hr : ev ≠ .reset)
    (hm : s.mode = .hunt) (h0 : s.cnt = 0) : stepR100 s p = dispatchR100 ev s.clearOutputs :=
  stepR100_dispatch he hr (by simp [hm]) (consistent_of_hunt_cnt hm h0)

theorem stepR100_dispatch_payload {s : State} {p : Pins} {ev : Event} {n : Nat} (he : decodeEvent p = ev)
    (hr : ev ≠ .reset) (hm : s.mode = .payload) (hn : payloadLen s.hdr = some n) (hc : s.cnt.toNat < n) :
    stepR100 s p = dispatchR100 ev s.clearOutputs :=
  stepR100_dispatch he hr (by simp [hm]) (consistent_of_payloadLen hm hn hc)

/-- The write of R100 that drops an index out of range is the write of R51 where the index is in range. -/
theorem setIfInBounds_eq_set (p : Vector Byte 5) (b : Byte) {k : Nat} (hk : k < 5) :
    p.setIfInBounds k b = p.set k b hk := by
  simp [Vector.setIfInBounds, Vector.set, Array.setIfInBounds, hk]

theorem dispatchR100_capture {s : State} {n : Nat} (b : Byte) (hm : s.mode = .payload)
    (hn : payloadLen s.hdr = some n) (hlt : s.cnt.toNat + 1 < n) (h5 : s.cnt.toNat < 5) :
    dispatchR100 (.byte b) s = { s with pbuf := s.pbuf.set s.cnt.toNat b h5, cnt := s.cnt + 1 } := by
  simp [dispatchR100, hm, hn, hlt, setIfInBounds_eq_set _ _ h5]

theorem dispatchR100_final {s : State} (b : Byte) (hm : s.mode = .payload)
    (hn : payloadLen s.hdr = some (s.cnt.toNat + 1)) (h5 : s.cnt.toNat < 5) :
    dispatchR100 (.byte b) s =
      { s with pbuf := s.pbuf.set s.cnt.toNat b h5, outValid := true, outHeader := s.hdr,
               outData := decodeByHeader s.hdr (s.pbuf.set s.cnt.toNat b h5), mode := .hunt, cnt := 0 } := by
  simp [dispatchR100, hm, hn, setIfInBounds_eq_set _ _ h5]

/-- Settles O25, by the cases of the step: in each the chain of R100 comes to the arm that gives the same state. -/
theorem stepIsTheRuleR100 : Obligations.StepIsTheRuleR100 := by
  intro s
  suffices h : ∃ t, step s = .next t ∧ stepR100 s.consumePins s.pins = t by
    obtain ⟨t, hst, rfl⟩ := h
    exact hst
  apply step_cases
  case reset => exact stepR100_reset
  case absorb => exact fun he hm => stepR100_absorb he hm
  case inconsistent => exact fun he hm hc => stepR100_inconsistent he hm hc
  case sourceFault | protocolFault | idle => exact fun hm hc he => stepR100_dispatch he (by simp) hm hc
  case huntTimeout =>
    intro hm h0 he
    rw [stepR100_dispatch_hunt (s := s.consumePins) he (by simp) hm h0]
    exact if_pos hm
  case huntHeader =>
    intro hm h0 b he hb
    rw [stepR100_dispatch_hunt (s := s.consumePins) he (by simp) hm h0]
    exact (if_pos hm).trans (if_pos hb)
  case huntNoise =>
    intro hm h0 b he hb
    rw [stepR100_dispatch_hunt (s := s.consumePins) he (by simp) hm h0]
    exact (if_pos hm).trans (if_neg (by simp [hb]))
  case truncate =>
    intro hm n hn hc he
    rw [stepR100_dispatch_payload (s := s.consumePins) he (by simp) hm hn hc]
    exact if_neg (by simp [hm])
  case capture =>
    intro hm n b hn hlt h5 he
    rw [stepR100_dispatch_payload (s := s.consumePins) he (by simp) hm hn (Nat.lt_of_succ_lt hlt)]
    exact dispatchR100_capture (s := s.consumePins.clearOutputs) b hm hn hlt h5
  case final =>
    intro hm b hn h5 he
    rw [stepR100_dispatch_payload (s := s.consumePins) he (by simp) hm hn (Nat.lt_succ_self _)]
    exact dispatchR100_final (s := s.consumePins.clearOutputs) b hm hn h5

/-- Settles O26: the chain of R100 answers a state. -/
theorem stepAlwaysAnswersNext : Obligations.StepAlwaysAnswersNext := fun s => ⟨_, stepIsTheRuleR100 s⟩

end Sys2Proof.Machine
end

section
/-! The rules R102 to R112 as next states with their frame, and the mode changes of R119. -/

namespace Sys2Proof.Machine

/-- Settles O29, by the row FAULT_ABSORB. -/
theorem faultModeAbsorbs : Obligations.FaultModeAbsorbs := fun _ hm he => step_absorb he hm

/-- The words of R112 for a state that R100 finds not consistent. -/
theorem not_consistent_of_R112 {s : State}
    (h : s.mode = .reserved ∨ (s.mode = .hunt ∧ s.cnt ≠ 0) ∨
      (s.mode = .payload ∧ (isHeader s.hdr = false ∨ ∃ n, payloadLen s.hdr = some n ∧ n ≤ s.cnt.toNat))) :
    ¬ s.Consistent := by
  rintro ⟨hr, hhunt, hpayload⟩
  obtain hm | ⟨hm, h0⟩ | ⟨hm, hb | ⟨n, hn, hle⟩⟩ := h
  · exact hr hm
  · exact h0 (hhunt hm)
  · simp [hb] at hpayload
    exact hpayload hm
  · obtain ⟨-, hlt⟩ := hpayload hm
    simp only [hn, Option.getD_some] at hlt
    omega

/-- Settles O30: each of the conditions of R112 fails the check that comes before any event but RESET. -/
theorem inconsistentStateFaults : Obligations.InconsistentStateFaults := by
  intro s he h
  refine step_inconsistent he ?_ (not_consistent_of_R112 h)
  obtain hm | ⟨hm, -⟩ | ⟨hm, -⟩ := h <;> simp [hm]

/-- HUNT and PAYLOAD mode are not FAULT mode. -/
theorem mode_ne_fault {s : State} (hm : s.mode = .hunt ∨ s.mode = .payload) : s.mode ≠ .fault := by
  obtain hm | hm := hm <;> simp [hm]

/-- Settles O31, by the row EV_FAULT. -/
theorem sourceFaultStep : Obligations.SourceFaultStep := by
  intro s hm hc hrst hfault
  obtain ⟨-, hev, -⟩ := pinsSelectOneEvent s.pins
  exact step_sourceFault (mode_ne_fault hm) hc (hev hrst hfault)

/-- Settles O32, by the row EV_PROTOCOL. -/
theorem protocolFaultStep : Obligations.ProtocolFaultStep := by
  intro s hm hc hrst hfault htimeout hvalid
  obtain ⟨-, -, hev, -⟩ := pinsSelectOneEvent s.pins
  exact step_protocolFault (mode_ne_fault hm) hc (hev hrst hfault htimeout hvalid)

/-- Settles O33, by the row HUNT_TIMEOUT. -/
theorem huntTimeoutStep : Obligations.HuntTimeoutStep := fun _ hm h0 he => step_huntTimeout hm h0 he

/-- Settles O34, by the row PAYLOAD_TRUNCATE. -/
theorem payloadTruncateStep : Obligations.PayloadTruncateStep := fun _ _ hm hn hc he => step_truncate hm hn hc he

/-- Settles O35, by the row EV_IDLE. -/
theorem idleStep : Obligations.IdleStep := fun _ hm hc he => step_idle (mode_ne_fault hm) hc he

/-- Settles O36, by the three header rows. -/
theorem huntHeaderStep : Obligations.HuntHeaderStep := fun _ _ hm h0 he hb => step_huntHeader hm h0 he hb

/-- Settles O37, by the row HUNT_NOISE. -/
theorem huntNoiseStep : Obligations.HuntNoiseStep := fun _ _ hm h0 he hb => step_huntNoise hm h0 he hb

/-- A write sets its own slot and leaves the others (R51). -/
theorem getElem?_pbuf_set (p : Vector Byte 5) (b : Byte) {k : Nat} (hk : k < 5) (j : Nat) :
    (p.set k b hk)[j]? = if j = k then some b else p[j]? := by
  simp only [Vector.getElem?_set, eq_comm (a := j)]

/-- Settles O38, by the row PAYLOAD_CAPTURE. -/
theorem payloadCaptureStep : Obligations.PayloadCaptureStep := by
  intro s b n hm hn hlt he
  have h5 : s.cnt.toNat < 5 := by have := payloadLen_le_five hn; omega
  exact ⟨_, step_capture hm hn hlt he h5, rfl, cnt_succ_toNat h5, fun j _ => getElem?_pbuf_set _ _ h5 j⟩

/-- The case list of R140, read at each header of the table. -/
theorem decodeByHeader_cases (h : Byte) (p : Vector Byte 5) :
    (h = 0xAA → decodeByHeader h p = decodeSensor p[0] p[1] p[2]) ∧
      (h = 0xBB → decodeByHeader h p = decodeAction p[0] p[1] p[2]) ∧
      (h = 0xCC → decodeByHeader h p = decodePin p[0] p[1] p[2] p[3] p[4]) :=
  ⟨by rintro rfl; rfl, by rintro rfl; rfl, by rintro rfl; rfl⟩

/-- Settles O39, by the row PAYLOAD_FINAL. -/
theorem payloadFinalStep : Obligations.PayloadFinalStep := by
  intro s b hm hn he
  have h5 : s.cnt.toNat < 5 := payloadLen_le_five hn
  exact ⟨_, step_final hm hn he h5, rfl, fun j _ => getElem?_pbuf_set _ _ h5 j, decodeByHeader_cases _ _⟩

/-- Settles O46, by the cases of the step: those not named leave the mode as it was. -/
theorem modeChangesAreTheRuleR119 : Obligations.ModeChangesAreTheRuleR119 := by
  intro s t h
  apply step_next_of_cases h
  apply step_cases
  case reset => exact fun he _ => .inr (.inr (.inr ⟨rfl, he⟩))
  case inconsistent => exact fun _ _ hc _ => .inr (.inr (.inl ⟨rfl, .inr (.inr hc)⟩))
  case sourceFault => exact fun _ _ he _ => .inr (.inr (.inl ⟨rfl, .inl he⟩))
  case protocolFault => exact fun _ _ he _ => .inr (.inr (.inl ⟨rfl, .inr (.inl he)⟩))
  case huntHeader => exact fun hm _ b he hb _ => .inl ⟨hm, rfl, b, he, hb⟩
  case truncate => exact fun hm _ _ _ he _ => .inr (.inl ⟨hm, rfl, .inr he⟩)
  case final => exact fun hm b hn _ he _ => .inr (.inl ⟨hm, rfl, .inl ⟨b, he, hn⟩⟩)
  all_goals
    intros
    exact absurd rfl ‹_ ≠ _›

end Sys2Proof.Machine
end

section
/-! The framer's rows as operations of their own, in every state. -/

namespace Sys2Proof.Machine

/-- Settles O11: each of the three rows is the output clear of R101. -/
theorem absorbNoiseIdleOnlyClearOutputs : Obligations.AbsorbNoiseIdleOnlyClearOutputs := by
  rintro s i (rfl | ⟨b, rfl⟩ | rfl) <;> rfl

/-- Settles O13, by the meanings of the two rows. -/
theorem timeoutRowsSignalNoFrame : Obligations.TimeoutRowsSignalNoFrame := fun _ => ⟨rfl, rfl⟩

/-- Settles O14: each of the three rows accepts its own header. -/
theorem headerRowsStartAFrame : Obligations.HeaderRowsStartAFrame := by
  rintro s i h (⟨rfl, rfl⟩ | ⟨rfl, rfl⟩ | ⟨rfl, rfl⟩) <;> rfl

/-- Settles O15, by the store of R51 in range. -/
theorem captureRowStoresOneByte : Obligations.CaptureRowStoresOneByte := fun _ b h5 =>
  ⟨_, execPayloadCapture_of_lt h5 b, rfl, fun j _ => getElem?_pbuf_set _ b h5 j⟩

/-- The decoder row that a header selects shows the sample of the buffer under that header as kind tag (R140). -/
theorem exec_decoderRow {s : State} (hh : isHeader s.hdr = true) :
    ∃ i, decodeHeader s.hdr = some i ∧ exec i s = .next (s.emit s.hdr (decodeByHeader s.hdr s.pbuf)) := by
  obtain ⟨hAA, hBB, hCC⟩ := decodeByHeader_cases s.hdr s.pbuf
  obtain h | h | h := (isHeader_iff s.hdr).mp hh
  · exact ⟨.hdrSensor, by rw [h]; rfl, by rw [hAA h, h]; rfl⟩
  · exact ⟨.hdrAction, by rw [h]; rfl, by rw [hBB h, h]; rfl⟩
  · exact ⟨.hdrPin, by rw [h]; rfl, by rw [hCC h, h]; rfl⟩

/-- Settles O16: the decoder row shows the sample of the stored buffer, as PAYLOAD_FINAL does before it hunts again. -/
theorem finalRowRunsDecoderRow : Obligations.FinalRowRunsDecoderRow := by
  intro s b h5 hh
  obtain ⟨i, hi, hexec⟩ := exec_decoderRow (s := { s.clearOutputs with pbuf := s.pbuf.set s.cnt.toNat b h5 }) hh
  exact ⟨i, _, hi, hexec, execPayloadFinal_of_isHeader h5 hh b, rfl, rfl⟩

end Sys2Proof.Machine
end

section
/-! Runs as functions of their events: what a sequence of events makes of a state, without the pins that carry them. -/

namespace Sys2Proof.Machine

/-! ### One event -/

/-- The pins that carry an event (R84). -/
def eventPins : Event → Pins
  | .reset => tokenPins .reset
  | .fault => tokenPins .fault
  | .protocol => tokenPins .protocol
  | .timeout => tokenPins .timeout
  | .byte b => tokenPins (.byte b)
  | .idle => tokenPins .idle

@[simp] theorem decodeEvent_eventPins (ev : Event) : decodeEvent (eventPins ev) = ev := by
  cases ev <;> exact decodeEvent_tokenPins _

/-- The state with an event coming next, before the rest of its input. -/
def State.meets (ev : Event) (s : State) : State := s.feed (eventPins ev :: s.input)

@[simp] theorem State.decodeEvent_meets (ev : Event) (s : State) : decodeEvent (s.meets ev).pins = ev :=
  decodeEvent_eventPins ev

/-- The state after an event, whatever comes then. -/
def State.after (s : State) (ev : Event) : State := stepR100 s (eventPins ev)

theorem step_meets (s : State) (ev : Event) : step (s.meets ev) = .next (s.after ev) := stepIsTheRuleR100 _

theorem after_of_step {s t : State} {ev : Event} (h : step (s.meets ev) = .next t) : s.after ev = t :=
  Host.Outcome.next.inj ((step_meets s ev).symm.trans h)

/-- Of the pins R100 reads the event alone. -/
theorem stepR100_congr (s : State) {p q : Pins} (h : decodeEvent p = decodeEvent q) : stepR100 s p = stepR100 s q := by
  rw [stepR100, stepR100, h]

theorem dispatchR100_feed (ev : Event) (s : State) (ps : List Pins) :
    dispatchR100 ev (s.feed ps) = (dispatchR100 ev s).feed ps := by
  cases ev with
  | timeout | byte b =>
    simp only [dispatchR100, apply_ite (State.feed ps)]
    rfl
  | _ => rfl

/-- R100 neither reads nor writes the coming input. -/
theorem stepR100_feed (s : State) (p : Pins) (ps : List Pins) : stepR100 (s.feed ps) p = (stepR100 s p).feed ps := by
  simp only [stepR100, apply_ite (State.feed ps), ← dispatchR100_feed]
  rfl

/-- A step of a run on given pins is the event that they name. -/
theorem step_feed_cons (s : State) (p : Pins) (ps : List Pins) :
    step (s.feed (p :: ps)) = .next ((s.after (decodeEvent p)).feed ps) := by
  have hpins : stepR100 s p = s.after (decodeEvent p) := stepR100_congr s (decodeEvent_eventPins _).symm
  rw [← hpins, ← stepR100_feed]
  exact stepIsTheRuleR100 _

/-- What the outputs showed before a step is of no consequence (R101). -/
theorem after_clearOutputs (s : State) (ev : Event) : s.clearOutputs.after ev = s.after ev := rfl

/-! ### Sequences of events -/

/-- The results that a sequence of events gives, and the registers that it leads to, with the outputs cleared. -/
def State.runEvents (s : State) : List Event → List FrameResult × State
  | [] => ([], s.clearOutputs)
  | ev :: es => ((s.after ev).runEvents es).map ((s.after ev).ports.result.toList ++ ·) id

/-- The result of a step, then those of the steps after it. -/
theorem runEvents_cons (s : State) (ev : Event) (es : List Event) :
    s.runEvents (ev :: es) = ((s.after ev).runEvents es).map ((s.after ev).ports.result.toList ++ ·) id := rfl

/-- The results of a run and its last state are those of its events. -/
theorem results_feed (ps : List Pins) :
    ∀ s : State, results ps.length (s.feed ps) = (s.runEvents (ps.map decodeEvent)).1 := by
  induction ps with
  | nil => exact fun _ => rfl
  | cons p ps ih =>
    intro s
    rw [List.length_cons, results_succ_of_step _ (step_feed_cons s p ps), ih]
    rfl

theorem runSteps_feed (ps : List Pins) :
    ∀ s : State, ∃ t, runSteps ps.length (s.feed ps) = .next t ∧
      t.clearOutputs = (s.runEvents (ps.map decodeEvent)).2.feed [] := by
  induction ps with
  | nil => exact fun s => ⟨_, rfl, rfl⟩
  | cons p ps ih =>
    intro s
    obtain ⟨t, hrun, ht⟩ := ih (s.after (decodeEvent p))
    exact ⟨t, (runSteps_succ_of_step _ (step_feed_cons s p ps)).trans hrun, ht⟩

theorem runEvents_clearOutputs (s : State) (es : List Event) : s.clearOutputs.runEvents es = s.runEvents es := by
  cases es with
  | nil => rfl
  | cons ev es => rw [runEvents_cons, runEvents_cons, after_clearOutputs]

/-- A step that leaves the outputs cleared adds no result. -/
theorem runEvents_of_silent {s t : State} {ev : Event} (h : step (s.meets ev) = .next t.clearOutputs)
    (es : List Event) : s.runEvents (ev :: es) = t.runEvents es := by
  rw [runEvents_cons, after_of_step h, runEvents_clearOutputs]
  rfl

/-- A step that shows a result adds it. -/
theorem runEvents_of_result {s t : State} {ev : Event} {r : FrameResult} (h : step (s.meets ev) = .next t)
    (hr : t.ports.result = some r) (es : List Event) : s.runEvents (ev :: es) = (t.runEvents es).map (r :: ·) id := by
  rw [runEvents_cons, after_of_step h, hr]
  rfl

/-! ### Idle steps (R109, R114) -/

theorem runEvents_idle {s : State} (hc : s.Consistent) (es : List Event) :
    s.runEvents (.idle :: es) = s.runEvents es := by
  refine runEvents_of_silent ?_ es
  by_cases hm : s.mode = .fault
  · exact step_absorb (s := s.meets .idle) (by simp) hm
  · exact step_idle (s := s.meets .idle) hm hc (by simp)

/-- A step from a consistent state leads to one: a halted block is consistent, and the framer's moves keep R36 (b) and
(c). -/
theorem consistent_of_step {s t : State} (hc : s.Consistent) (h : step s = .next t) : t.Consistent := by
  apply step_next_of_cases h
  apply step_cases
  case reset | truncate | final =>
    intros
    exact consistent_of_hunt_cnt rfl rfl
  case absorb | idle | huntTimeout | huntNoise =>
    intros
    exact hc
  case inconsistent | sourceFault | protocolFault =>
    intros
    simp [State.Consistent]
  case huntHeader =>
    intro _ _ b _ hb
    obtain ⟨n, hn⟩ := Option.isSome_iff_exists.mp hb
    exact consistent_of_payloadLen rfl hn (payloadLen_pos hn)
  case capture =>
    intro hm n b hn hlt h5 _
    exact consistent_of_payloadLen hm hn (lt_of_eq_of_lt (cnt_succ_toNat h5) hlt)

theorem consistent_after {s : State} (hc : s.Consistent) (ev : Event) : (s.after ev).Consistent :=
  consistent_of_step (s := s.meets ev) hc (step_meets s ev)

theorem runEvents_withoutIdle (ps : List Pins) :
    ∀ {s : State}, s.Consistent → s.runEvents (ps.map decodeEvent) = s.runEvents (eventsWithoutIdle ps) := by
  induction ps with
  | nil => exact fun _ => rfl
  | cons p ps ih =>
    intro s hc
    rw [List.map_cons, eventsWithoutIdle_cons]
    split_ifs with hidle
    · rw [hidle, runEvents_idle hc, ih hc]
    · rw [runEvents_cons, runEvents_cons, ih (consistent_after hc _)]

/-- From a consistent state the results of a run and its last registers are those of its events apart from IDLE. -/
theorem run_feed {s : State} (hc : s.Consistent) (ps : List Pins) :
    results ps.length (s.feed ps) = (s.runEvents (eventsWithoutIdle ps)).1 ∧
      ∃ t, runSteps ps.length (s.feed ps) = .next t ∧
        t.clearOutputs = (s.runEvents (eventsWithoutIdle ps)).2.feed [] := by
  rw [← runEvents_withoutIdle ps hc]
  exact ⟨results_feed ps s, runSteps_feed ps s⟩

/-- Settles O54: both runs are those of the one sequence of events without idle steps. -/
theorem idleStepsChangeNoResult : Obligations.IdleStepsChangeNoResult := by
  intro s ps qs hc hev
  obtain ⟨hres, t, hrun, ht⟩ := run_feed hc ps
  obtain ⟨hres', u, hrun', hu⟩ := run_feed hc qs
  rw [hev] at hres ht
  have htu : t.clearOutputs = u.clearOutputs := ht.trans hu.symm
  exact ⟨hres.trans hres'.symm, t, u, hrun, hrun', by simpa using congrArg State.mode htu,
    by simpa using congrArg State.hdr htu, by simpa using congrArg State.cnt htu,
    by simpa using congrArg State.faultCode htu⟩

end Sys2Proof.Machine
end

section
/-! R115 to R118: what the events of a frame attempt give, from HUNT mode and within a frame. -/

namespace Sys2Proof.Machine

/-- The events give these results and lead to HUNT mode between two frames, with `fault_code` kept. -/
def State.EndsHunting (s : State) (es : List Event) (rs : List FrameResult) : Prop :=
  ∃ t : State, s.runEvents es = (rs, t) ∧ t.mode = .hunt ∧ t.cnt = 0 ∧ t.faultCode = s.faultCode

/-- The same of a run whose events apart from IDLE these are. -/
theorem State.EndsHunting.run {s : State} {ps : List Pins} {rs : List FrameResult} (hc : s.Consistent)
    (h : s.EndsHunting (eventsWithoutIdle ps) rs) :
    results ps.length (s.feed ps) = rs ∧
      ∃ t, runSteps ps.length (s.feed ps) = .next t ∧ t.mode = .hunt ∧ t.cnt = 0 ∧ t.faultCode = s.faultCode := by
  obtain ⟨u, hu, hm, h0, hf⟩ := h
  obtain ⟨hres, t, hrun, ht⟩ := run_feed hc ps
  rw [hu] at hres ht
  refine ⟨hres, t, hrun, ?_, ?_, ?_⟩
  · simpa [hm] using congrArg State.mode ht
  · simpa [h0] using congrArg State.cnt ht
  · simpa [hf] using congrArg State.faultCode ht

/-! ### In HUNT mode -/

theorem runEvents_noiseByte {s : State} {b : Byte} (hm : s.mode = .hunt) (h0 : s.cnt = 0) (hb : isHeader b = false)
    (es : List Event) : s.runEvents (.byte b :: es) = s.runEvents es :=
  runEvents_of_silent (step_huntNoise (s := s.meets (.byte b)) hm h0 (by simp) hb) es

theorem runEvents_noise {s : State} (hm : s.mode = .hunt) (h0 : s.cnt = 0) {noise : List Byte}
    (hnoise : ∀ b ∈ noise, isHeader b = false) (es : List Event) :
    s.runEvents (noise.map .byte ++ es) = s.runEvents es := by
  induction noise with
  | nil => rfl
  | cons b noise ih =>
    obtain ⟨hb, hnoise⟩ := List.forall_mem_cons.mp hnoise
    exact (runEvents_noiseByte hm h0 hb _).trans (ih hnoise)

theorem runEvents_header {s : State} {h : Byte} (hm : s.mode = .hunt) (h0 : s.cnt = 0) (hh : isHeader h = true)
    (es : List Event) : s.runEvents (.byte h :: es) = (s.acceptHeader h).runEvents es :=
  runEvents_of_silent (step_huntHeader (s := s.meets (.byte h)) hm h0 (by simp) hh) es

theorem runEvents_huntTimeout {s : State} (hm : s.mode = .hunt) (h0 : s.cnt = 0) (es : List Event) :
    s.runEvents (.timeout :: es) = (s.clearOutputs.noframe.runEvents es).map (.noFrame :: ·) id :=
  runEvents_of_result (step_huntTimeout (s := s.meets .timeout) hm h0 (by simp)) rfl es

/-! ### Within a frame -/

theorem InFrame.consistent {h : Byte} {got : List Byte} {n : Nat} {s : State} (hs : InFrame h got s)
    (hn : payloadLen h = some n) (hlt : got.length < n) : s.Consistent := by
  obtain ⟨hm, rfl, hcnt, -⟩ := hs
  exact consistent_of_payloadLen hm hn (hcnt ▸ hlt)

/-- A byte that is not the last (R105). -/
theorem InFrame.runEvents_byte {h : Byte} {got : List Byte} {n : Nat} {s : State} (hs : InFrame h got s)
    (hn : payloadLen h = some n) (b : Byte) (hlt : got.length + 1 < n) :
    ∃ t : State, InFrame h (got ++ [b]) t ∧ t.faultCode = s.faultCode ∧
      ∀ es, s.runEvents (.byte b :: es) = t.runEvents es := by
  obtain ⟨hm, rfl, hcnt, htaken⟩ := hs
  rw [← hcnt] at hlt
  have h5 : s.cnt.toNat < 5 := by have := payloadLen_le_five hn; omega
  have hst := step_capture (s := s.meets (.byte b)) hm hn hlt (s.decodeEvent_meets _) h5
  refine ⟨{ s with pbuf := s.pbuf.set s.cnt.toNat b h5, cnt := s.cnt + 1 }, ⟨hm, rfl, ?_, ?_⟩, rfl,
    runEvents_of_silent hst⟩
  · simp only [cnt_succ_toNat h5, hcnt, List.length_append, List.length_singleton]
  · rw [taken_of_write h5 b rfl rfl, htaken]

/-- The last byte (R106). -/
theorem InFrame.runEvents_lastByte {h : Byte} {got : List Byte} {s : State} (hs : InFrame h got s)
    (hn : payloadLen h = some (got.length + 1)) (b : Byte) :
    ∃ t : State,
      (∀ es, s.runEvents (.byte b :: es) = (t.runEvents es).map (.sample h (sampleOf h (got ++ [b])) :: ·) id) ∧
        t.mode = .hunt ∧ t.cnt = 0 ∧ t.faultCode = s.faultCode := by
  obtain ⟨hm, rfl, hcnt, htaken⟩ := hs
  rw [← hcnt] at hn
  have h5 : s.cnt.toNat < 5 := payloadLen_le_five hn
  have hst := step_final (s := s.meets (.byte b)) hm hn (s.decodeEvent_meets _) h5
  refine ⟨_, runEvents_of_result hst ?_, rfl, rfl, rfl⟩
  rw [← htaken, ← decodeByHeader_lastByte hn h5 b]
  rfl

theorem InFrame.runEvents_timeout {h : Byte} {got : List Byte} {n : Nat} {s : State} (hs : InFrame h got s)
    (hn : payloadLen h = some n) (hlt : got.length < n) (es : List Event) :
    s.runEvents (.timeout :: es) = (s.clearOutputs.noframe.toHunt.runEvents es).map (.noFrame :: ·) id := by
  obtain ⟨hm, rfl, hcnt, -⟩ := hs
  exact runEvents_of_result (step_truncate (s := s.meets .timeout) hm hn (hcnt ▸ hlt) (by simp)) rfl es

/-- Bytes that do not complete the frame. -/
theorem InFrame.runEvents_bytes {h : Byte} {n : Nat} (hn : payloadLen h = some n) (bs : List Byte) :
    ∀ {got : List Byte} {s : State}, InFrame h got s → got.length + bs.length < n →
      ∃ t : State, InFrame h (got ++ bs) t ∧ t.faultCode = s.faultCode ∧
        ∀ es, s.runEvents (bs.map .byte ++ es) = t.runEvents es := by
  induction bs with
  | nil => exact fun hs _ => ⟨_, by rwa [List.append_nil], rfl, fun _ => rfl⟩
  | cons b bs ih =>
    intro got s hs hlt
    simp only [List.length_cons] at hlt
    obtain ⟨t, ht, hft, hrunt⟩ := hs.runEvents_byte hn b (by omega)
    obtain ⟨u, hu, hfu, hrunu⟩ := ih ht (by simp; omega)
    rw [List.append_assoc, List.singleton_append] at hu
    exact ⟨u, hu, hfu.trans hft, fun es => (hrunt _).trans (hrunu es)⟩

/-- From HUNT mode a header, then bytes that do not complete its frame, lead into that frame. -/
theorem inFrame_of_runEvents {s : State} {h : Byte} {n : Nat} {bs : List Byte} (hm : s.mode = .hunt) (h0 : s.cnt = 0)
    (hn : payloadLen h = some n) (hlt : bs.length < n) :
    ∃ t : State, InFrame h bs t ∧ t.faultCode = s.faultCode ∧
      ∀ es, s.runEvents (.byte h :: (bs.map .byte ++ es)) = t.runEvents es := by
  obtain ⟨t, ht, hf, hrun⟩ := InFrame.runEvents_bytes hn bs (inFrame_acceptHeader h s) (by simpa using hlt)
  exact ⟨t, ht, hf, fun es => (runEvents_header hm h0 (isHeader_of_payloadLen hn) _).trans (hrun es)⟩

/-! ### The two forms of R118 -/

/-- A header and its payload: the bytes but the last lead into the frame, and the last one completes it. -/
theorem endsHunting_frame {s : State} {h : Byte} {payload : List Byte} (hm : s.mode = .hunt) (h0 : s.cnt = 0)
    (hn : payloadLen h = some payload.length) :
    s.EndsHunting (.byte h :: payload.map .byte) [.sample h (sampleOf h payload)] := by
  obtain rfl | ⟨bs, b, rfl⟩ := List.eq_nil_or_concat payload
  · exact absurd (payloadLen_pos hn) (by simp)
  rw [List.concat_eq_append, List.length_append, List.length_singleton] at hn
  obtain ⟨t, ht, hft, hrunt⟩ := inFrame_of_runEvents hm h0 hn (Nat.lt_succ_self _)
  obtain ⟨u, hrunu, hmu, h0u, hfu⟩ := ht.runEvents_lastByte hn b
  refine ⟨u.clearOutputs, ?_, hmu, h0u, hfu.trans hft⟩
  rw [List.concat_eq_append, List.map_append, hrunt]
  exact hrunu []

/-- A timeout, with or without a frame begun. -/
theorem endsHunting_timeout {s : State} {started : List Byte} (hm : s.mode = .hunt) (h0 : s.cnt = 0)
    (hs : started = [] ∨ ∃ h n payload, started = h :: payload ∧ payloadLen h = some n ∧ payload.length < n) :
    s.EndsHunting (started.map .byte ++ [.timeout]) [.noFrame] := by
  obtain rfl | ⟨h, n, payload, rfl, hn, hlt⟩ := hs
  · exact ⟨_, runEvents_huntTimeout hm h0 [], hm, h0, rfl⟩
  · obtain ⟨t, ht, hft, hrunt⟩ := inFrame_of_runEvents hm h0 hn hlt
    exact ⟨_, (hrunt _).trans (ht.runEvents_timeout hn hlt []), rfl, rfl, hft⟩

/-- Settles O55: noise leaves the state, and the frame after it gives its sample. -/
theorem frameAttemptGivesItsSample : Obligations.FrameAttemptGivesItsSample := by
  intro s ps noise payload h hm h0 hnoise hn hev
  refine State.EndsHunting.run (consistent_of_hunt_cnt hm h0) ?_
  rw [hev, State.EndsHunting, runEvents_noise hm h0 hnoise]
  exact endsHunting_frame hm h0 hn

/-- Settles O56: noise leaves the state, and the timeout after it gives NoFrame, in a frame or not. -/
theorem cutFrameAttemptGivesNoFrame : Obligations.CutFrameAttemptGivesNoFrame := by
  intro s ps noise started hm h0 hnoise hs hev
  refine State.EndsHunting.run (consistent_of_hunt_cnt hm h0) ?_
  rw [hev, State.EndsHunting, List.append_assoc, runEvents_noise hm h0 hnoise]
  exact endsHunting_timeout hm h0 hs

end Sys2Proof.Machine
end

section
/-! R118: the block refines the software framer of the source. A state in HUNT mode stands for a call of `readFrame`,
a state within a frame for a call of `readPayload` with the bytes taken. -/

namespace Sys2Proof.Machine

/-- The result of a call, where it has answered, and of at most `k` calls of `readFrame` after it. -/
def resultsFrom (k : Nat) : Option (FrameResult × List Event) → List FrameResult
  | some (r, rest) => r :: readFrames k rest
  | none => []

theorem readFrames_succ (k : Nat) (es : List Event) : readFrames (k + 1) es = resultsFrom k (readFrame es) := by
  rw [readFrames]
  cases readFrame es <;> rfl

theorem readFrames_nil (k : Nat) : readFrames k [] = [] := by cases k <;> rfl

/-- A header byte begins the read of its payload. -/
theorem readFrame_header {h : Byte} {n : Nat} (hn : payloadLen h = some n) (es : List Event) :
    readFrame (.byte h :: es) = readPayload h n [] es := by
  rw [readFrame, hn]

theorem readFrame_noise {b : Byte} (hb : isHeader b = false) (es : List Event) :
    readFrame (.byte b :: es) = readFrame es := by
  rw [readFrame, Option.not_isSome_iff_eq_none.mp (Bool.eq_false_iff.mp hb)]

/-- From HUNT mode the results of the block are those of the calls of `readFrame`. -/
def HuntRefines (es : List Event) : Prop :=
  ∀ {k : Nat} {s : State}, es.length ≤ k → s.mode = .hunt → s.cnt = 0 → (s.runEvents es).1 = readFrames k es

/-- Within a frame they are those of the read of its remaining payload and of the calls of `readFrame` after it. -/
def FrameRefines (es : List Event) : Prop :=
  ∀ {k : Nat} {s : State} {h : Byte} {got : List Byte} {n : Nat}, es.length ≤ k → InFrame h got s →
    payloadLen h = some n → got.length < n →
    (s.runEvents es).1 = resultsFrom k (readPayload h (n - got.length) got es)

theorem huntRefines_cons {ev : Event} {es : List Event} (hev : ordinaryEvent ev = true) (hunt : HuntRefines es)
    (frame : FrameRefines es) : HuntRefines (ev :: es) := by
  intro k s hk hm h0
  obtain ⟨k, rfl⟩ : ∃ j, k = j + 1 := Nat.exists_eq_succ_of_ne_zero (by simp at hk; omega)
  replace hk : es.length ≤ k := by simpa using hk
  rw [readFrames_succ]
  cases ev with
  | idle =>
    rw [runEvents_idle (consistent_of_hunt_cnt hm h0), readFrame, ← readFrames_succ]
    exact hunt (Nat.le_succ_of_le hk) hm h0
  | timeout =>
    rw [runEvents_huntTimeout hm h0, readFrame]
    exact congrArg (.noFrame :: ·) (hunt (s := s.clearOutputs.noframe) hk hm h0)
  | byte b =>
    cases hb : isHeader b with
    | false =>
      rw [runEvents_noiseByte hm h0 hb, readFrame_noise hb, ← readFrames_succ]
      exact hunt (Nat.le_succ_of_le hk) hm h0
    | true =>
      obtain ⟨n, hn⟩ := Option.isSome_iff_exists.mp hb
      rw [runEvents_header hm h0 hb, readFrame_header hn]
      exact frame hk (inFrame_acceptHeader b s) hn (payloadLen_pos hn)
  | fault | protocol | reset => cases hev

theorem frameRefines_cons {ev : Event} {es : List Event} (hev : ordinaryEvent ev = true) (hunt : HuntRefines es)
    (frame : FrameRefines es) : FrameRefines (ev :: es) := by
  intro k s h got n hk hs hn hlt
  replace hk : es.length ≤ k := Nat.le_of_succ_le hk
  cases ev with
  | idle =>
    rw [runEvents_idle (hs.consistent hn hlt), readPayload]
    exact frame hk hs hn hlt
  | timeout =>
    rw [hs.runEvents_timeout hn hlt, readPayload]
    exact congrArg (.noFrame :: ·) (hunt (s := s.clearOutputs.noframe.toHunt) hk rfl rfl)
  | byte b =>
    rw [readPayload]
    by_cases hmore : got.length + 1 < n
    · obtain ⟨t, ht, -, hrun⟩ := hs.runEvents_byte hn b hmore
      have hneed : n - got.length - 1 = n - (got ++ [b]).length := by simp [Nat.sub_sub]
      rw [hrun, if_neg (by omega), hneed]
      exact frame hk ht hn (by simpa using hmore)
    · obtain rfl : n = got.length + 1 := by omega
      obtain ⟨t, hrun, hm, h0, -⟩ := hs.runEvents_lastByte hn b
      rw [hrun, if_pos (by omega)]
      exact congrArg (.sample h (sampleOf h (got ++ [b])) :: ·) (hunt hk hm h0)
  | fault | protocol | reset => cases hev

theorem runEvents_refines (es : List Event) (hord : ∀ ev ∈ es, ordinaryEvent ev = true) :
    HuntRefines es ∧ FrameRefines es := by
  induction es with
  | nil => exact ⟨fun _ _ _ => (readFrames_nil _).symm, fun _ _ _ _ => rfl⟩
  | cons ev es ih =>
    obtain ⟨hev, hord⟩ := List.forall_mem_cons.mp hord
    obtain ⟨hunt, frame⟩ := ih hord
    exact ⟨huntRefines_cons hev hunt frame, frameRefines_cons hev hunt frame⟩

/-- Settles O57: the run is that of its events, and on ordinary events these refine the calls of `readFrame`. -/
theorem blockRefinesReadFrame : Obligations.BlockRefinesReadFrame := by
  intro s ps hm h0 hord
  obtain ⟨hunt, -⟩ := runEvents_refines (ps.map decodeEvent) (List.forall_mem_map.mpr hord)
  rw [results_feed]
  exact hunt (Nat.le_of_eq (List.length_map _)) hm h0

end Sys2Proof.Machine
end

section
/-! R141 to R149: what each decoder puts into the lanes of a sample, and what a consumer reads there. -/

namespace Sys2Proof.Machine

/-! ### Bit slots (R78) -/

/-- A lane that shows one bit. -/
def bitSlot (b : Bool) : Byte := if b then 0x01 else 0x00

theorem bitSlot_inj {a b : Bool} : bitSlot a = bitSlot b ↔ a = b := by
  cases a <;> cases b <;> decide

theorem bitSlot_eq_zero_or_one (b : Bool) : bitSlot b = 0x00 ∨ bitSlot b = 0x01 := by
  cases b
  · exact .inl rfl
  · exact .inr rfl

theorem bitSlot_bne_zero (b : Bool) : (bitSlot b != 0) = b := by
  cases b <;> rfl

/-! ### Samples lane by lane -/

theorem decodeSensor_eq_lanes (lb c cap : Byte) :
    decodeSensor lb c cap =
      lanes (bitSlot (lb.getLsbD 0)) (bitSlot (lb.getLsbD 1)) c (bitSlot (lb.getLsbD 2)) (bitSlot (lb.getLsbD 3))
        cap := by
  simp only [decodeSensor, zext8_bitOf, bitSlot]

theorem decodeAction_eq_lanes (c d s : Byte) :
    decodeAction c d s =
      lanes (bitSlot (s.getLsbD 4)) (bitSlot (d.getLsbD 0)) c (bitSlot (d.getLsbD 4)) (bitSlot (s.getLsbD 0)) 0x00 := by
  obtain ⟨d0, d4⟩ := zext8_nz_mask d
  obtain ⟨s0, s4⟩ := zext8_nz_mask s
  rw [decodeAction, d0, d4, s0, s4]
  rfl

theorem lane_decodeSensor (lb c cap : Byte) :
    lane (decodeSensor lb c cap) 0 = bitSlot (lb.getLsbD 0) ∧ lane (decodeSensor lb c cap) 1 = bitSlot (lb.getLsbD 1) ∧
      lane (decodeSensor lb c cap) 2 = c ∧ lane (decodeSensor lb c cap) 3 = bitSlot (lb.getLsbD 2) ∧
      lane (decodeSensor lb c cap) 4 = bitSlot (lb.getLsbD 3) ∧ lane (decodeSensor lb c cap) 5 = cap := by
  rw [decodeSensor_eq_lanes]
  exact lane_lanes ..

theorem lane_decodeAction (c d s : Byte) :
    lane (decodeAction c d s) 0 = bitSlot (s.getLsbD 4) ∧ lane (decodeAction c d s) 1 = bitSlot (d.getLsbD 0) ∧
      lane (decodeAction c d s) 2 = c ∧ lane (decodeAction c d s) 3 = bitSlot (d.getLsbD 4) ∧
      lane (decodeAction c d s) 4 = bitSlot (s.getLsbD 0) ∧ lane (decodeAction c d s) 5 = 0x00 := by
  rw [decodeAction_eq_lanes]
  exact lane_lanes ..

theorem lane_decodePin (pin v0 v1 v2 v3 : Byte) :
    lane (decodePin pin v0 v1 v2 v3) 0 = pin ∧ lane (decodePin pin v0 v1 v2 v3) 1 = v0 ∧
      lane (decodePin pin v0 v1 v2 v3) 2 = v1 ∧ lane (decodePin pin v0 v1 v2 v3) 3 = v2 ∧
      lane (decodePin pin v0 v1 v2 v3) 4 = v3 ∧ lane (decodePin pin v0 v1 v2 v3) 5 = 0x00 := by
  rw [decodePin_eq_lanes]
  exact lane_lanes ..

/-- The voltage field lies between the pin number and the zero lane (R81). -/
theorem pinVoltage_decodePin (pin v0 v1 v2 v3 : Byte) :
    pinVoltage (decodePin pin v0 v1 v2 v3) = le32 v0 v1 v2 v3 := by
  unfold pinVoltage decodePin
  rw [BitVec.extractLsb'_append_eq_of_le (by decide)]
  exact BitVec.extractLsb'_append_eq_right

/-! ### What a consumer reads in a sample -/

theorem decodeSensor_inj {lb c cap lb' c' cap' : Byte} :
    decodeSensor lb c cap = decodeSensor lb' c' cap' ↔
      (∀ i < 4, lb.getLsbD i = lb'.getLsbD i) ∧ c = c' ∧ cap = cap' := by
  have hbits : (∀ i < 4, lb.getLsbD i = lb'.getLsbD i) ↔
      lb.getLsbD 0 = lb'.getLsbD 0 ∧ lb.getLsbD 1 = lb'.getLsbD 1 ∧ lb.getLsbD 2 = lb'.getLsbD 2 ∧
        lb.getLsbD 3 = lb'.getLsbD 3 :=
    ⟨fun h => ⟨h 0 (by decide), h 1 (by decide), h 2 (by decide), h 3 (by decide)⟩,
      fun ⟨h0, h1, h2, h3⟩ i hi => by interval_cases i <;> assumption⟩
  rw [decodeSensor_eq_lanes, decodeSensor_eq_lanes, lanes_inj, hbits]
  simp only [bitSlot_inj]
  tauto

theorem decodeAction_inj {c d s c' d' s' : Byte} :
    decodeAction c d s = decodeAction c' d' s' ↔
      c = c' ∧ d.getLsbD 0 = d'.getLsbD 0 ∧ d.getLsbD 4 = d'.getLsbD 4 ∧ s.getLsbD 0 = s'.getLsbD 0 ∧
        s.getLsbD 4 = s'.getLsbD 4 := by
  rw [decodeAction_eq_lanes, decodeAction_eq_lanes, lanes_inj]
  simp only [bitSlot_inj]
  tauto

theorem decodePin_inj {p v0 v1 v2 v3 p' v0' v1' v2' v3' : Byte} :
    decodePin p v0 v1 v2 v3 = decodePin p' v0' v1' v2' v3' ↔
      p = p' ∧ v0 = v0' ∧ v1 = v1' ∧ v2 = v2' ∧ v3 = v3' := by
  rw [decodePin_eq_lanes, decodePin_eq_lanes, lanes_inj]
  simp

/-- Settles O23: samples are equal lane by lane, and a bit slot is no less than its bit. -/
theorem sampleHoldsExactlyTheReadBits : Obligations.SampleHoldsExactlyTheReadBits :=
  ⟨fun _ _ _ _ _ _ => decodeSensor_inj, fun _ _ _ _ _ _ => decodeAction_inj,
    fun _ _ _ _ _ _ _ _ _ _ => decodePin_inj⟩

/-- R146: the flags are the bits that the bit slots show, and the collision is a byte. -/
theorem actionBooleans_decodeAction (c d s : Byte) :
    actionBooleans (decodeAction c d s) =
      [s.getLsbD 4, d.getLsbD 0, decide (c ≠ 0x00), d.getLsbD 4, s.getLsbD 0] := by
  obtain ⟨h0, h1, h2, h3, h4, -⟩ := lane_decodeAction c d s
  have hc : (c != 0) = decide (c ≠ 0x00) := by rw [Bool.eq_iff_iff]; simp
  simp only [actionBooleans, actionSlots, h0, h1, h2, h3, h4, List.map_cons, List.map_nil, bitSlot_bne_zero, hc]

/-- In both snapshots lanes 0, 1, 3 and 4 are the flag lanes. -/
theorem flagLane_eq_zero_or_one {d : SampleWord} {a0 a1 a3 a4 : Bool} (h0 : lane d 0 = bitSlot a0)
    (h1 : lane d 1 = bitSlot a1) (h3 : lane d 3 = bitSlot a3) (h4 : lane d 4 = bitSlot a4) :
    ∀ k ∈ [0, 1, 3, 4], lane d k = 0x00 ∨ lane d k = 0x01 := by
  simp only [List.forall_mem_cons, h0, h1, h3, h4]
  exact ⟨bitSlot_eq_zero_or_one a0, bitSlot_eq_zero_or_one a1, bitSlot_eq_zero_or_one a3, bitSlot_eq_zero_or_one a4,
    List.forall_mem_nil _⟩

/-- Settles O24, by the lanes of the two snapshots. -/
theorem booleanViewOfSnapshots : Obligations.BooleanViewOfSnapshots := by
  refine ⟨fun c d s => ⟨actionBooleans_decodeAction c d s, ?_⟩, fun lb c cap => ?_⟩
  · obtain ⟨h0, h1, -, h3, h4, -⟩ := lane_decodeAction c d s
    exact flagLane_eq_zero_or_one h0 h1 h3 h4
  · obtain ⟨h0, h1, -, h3, h4, -⟩ := lane_decodeSensor lb c cap
    exact flagLane_eq_zero_or_one h0 h1 h3 h4

end Sys2Proof.Machine
end

section
/-! R140 to R144: the decoder rows as operations of their own, and the header bytes that select them. -/

namespace Sys2Proof.Machine

/-- Settles O19, by the lanes of the SensorSnapshot. -/
theorem sensorRowShowsSixSlots : Obligations.SensorRowShowsSixSlots := fun _ => ⟨_, rfl, rfl, lane_decodeSensor _ _ _⟩

/-- Settles O20, by the lanes of the ActionSnapshot. -/
theorem actionRowShowsFiveSlots : Obligations.ActionRowShowsFiveSlots := fun _ => ⟨_, rfl, rfl, lane_decodeAction _ _ _⟩

/-- Settles O21, by the lanes of the PinReading and its voltage field. -/
theorem pinRowShowsPinAndVoltage : Obligations.PinRowShowsPinAndVoltage := by
  intro s
  obtain ⟨h0, h1, h2, h3, h4, h5⟩ := lane_decodePin s.pbuf[0] s.pbuf[1] s.pbuf[2] s.pbuf[3] s.pbuf[4]
  exact ⟨_, rfl, rfl, h0, h1, h2, h3, h4, h5, pinVoltage_decodePin ..⟩

/-- What the three header rows of R140 leave is HDR_DEFECT. -/
theorem decodeHeader_of_not_isHeader {h : Byte} (hh : isHeader h = false) : decodeHeader h = some (.hdrDefect h) := by
  have hne : ¬ (h = 0xAA ∨ h = 0xBB ∨ h = 0xCC) := mt (isHeader_iff h).mpr (Bool.eq_false_iff.mp hh)
  simp only [not_or] at hne
  obtain ⟨hAA, hBB, hCC⟩ := hne
  rw [decodeHeader_eq, if_neg hAA, if_neg hBB, if_neg hCC]

/-- Settles O22, by the two case lists of R140 and the fault entry of R176. -/
theorem decodeDefectRaisesConsistency : Obligations.DecodeDefectRaisesConsistency := fun _ _ p hh =>
  ⟨decodeHeader_of_not_isHeader hh, decodeFrame_of_not_isHeader hh p, rfl⟩

/-- The row of a header shows, in any state, the sample of the buffer under that header (R140). -/
theorem exec_of_decodeHeader {h : Byte} {i : Instr} (hh : isHeader h = true) (hi : decodeHeader h = some i)
    (s : State) : exec i s = .next (s.emit h (decodeByHeader h s.pbuf)) := by
  obtain rfl | rfl | rfl := (isHeader_iff h).mp hh <;> cases hi <;> rfl

/-! ### A placed header byte -/

/-- The count at the last payload byte of a frame, which fits the counter and the buffer. -/
theorem exists_lastCount {h : Byte} (hh : isHeader h = true) :
    ∃ n : Count, payloadLen h = some (n.toNat + 1) ∧ n.toNat < 5 := by
  obtain rfl | rfl | rfl := (isHeader_iff h).mp hh
  · exact ⟨2, rfl, by decide⟩
  · exact ⟨2, rfl, by decide⟩
  · exact ⟨4, rfl, by decide⟩

/-- A placed header stands before the last byte of its frame. -/
theorem State.placeHeaderByte_cnt {h : Byte} {n : Count} (hn : payloadLen h = some (n.toNat + 1)) (s : State) :
    (s.placeHeaderByte h).cnt = n := by
  simp [State.placeHeaderByte, hn]

/-- The byte placed with it is the one that the buffer holds there. -/
theorem State.placeHeaderByte_event {h : Byte} {n : Count} (hn : payloadLen h = some (n.toNat + 1))
    (h5 : n.toNat < 5) (s : State) : decodeEvent (s.placeHeaderByte h).pins = .byte s.pbuf[n.toNat] := by
  simp [State.placeHeaderByte, State.pins, decodeEvent_bytePins, hn, h5]

/-- The step after placing a header stores a byte that was there before, and so decodes the buffer as it was. -/
theorem step_placeHeaderByte {h : Byte} (hh : isHeader h = true) (s : State) :
    ∃ t, step (s.placeHeaderByte h) = .next t ∧ t.outValid = true ∧ t.outHeader = h ∧
      t.outData = decodeByHeader h s.pbuf ∧ t.pbuf = s.pbuf := by
  obtain ⟨n, hn, h5⟩ := exists_lastCount hh
  have hcnt := State.placeHeaderByte_cnt hn s
  have hstore : s.pbuf.set (s.placeHeaderByte h).cnt.toNat s.pbuf[n.toNat] (hcnt ▸ h5) = s.pbuf := by
    simp only [hcnt, Vector.set_getElem_self]
  exact ⟨_, step_final rfl (hcnt ▸ hn) (State.placeHeaderByte_event hn h5 s) (hcnt ▸ h5), rfl, rfl,
    congrArg (decodeByHeader h) hstore, hstore⟩

/-- Up to 8 bits the table has header bytes alone. -/
theorem eq_header_of_codeOfTableWord {nbits w : Nat} {c : Code} (hbits : nbits ≤ 8)
    (h : codeOfTableWord nbits w = .ok c) : c = .header (BitVec.ofNat 8 w) := by
  rw [codeOfTableWord, if_pos hbits] at h
  split_ifs at h
  exact (Except.ok.inj h).symm

/-- A header byte decodes to the row that R140 selects. -/
theorem decodeHeader_of_decode {h : Byte} {i : Instr} (hd : decode (.header h) = .ok i) : decodeHeader h = some i := by
  rw [decode] at hd
  split at hd
  · next j hj => rw [hj, Except.ok.inj hd]
  · cases hd

/-- Settles O9: the step from the placed state and the decoder row show the one sample of the buffer. -/
theorem placedHeaderByteIsDecoded : Obligations.PlacedHeaderByteIsDecoded := by
  intro s nbits w i hbits h hh
  obtain ⟨c, hcode, hdecode⟩ := code_of_decodeTableWord h
  obtain rfl := eq_header_of_codeOfTableWord hbits hcode
  have hplace : s.withFetchWord nbits w = s.placeHeaderByte (BitVec.ofNat 8 w) := by
    simp only [State.withFetchWord, hcode]
  obtain ⟨t, ht, hvalid, hheader, hdata, hpbuf⟩ := step_placeHeaderByte hh s
  rw [hplace]
  exact ⟨t, _, ht, exec_of_decodeHeader hh (decodeHeader_of_decode hdecode) s, hvalid, rfl, hheader, hdata, hpbuf⟩

end Sys2Proof.Machine
end

section
/-! R141 to R143 through the step: what the last byte of each frame shows. -/

namespace Sys2Proof.Machine

/-- The last byte of a frame shows the sample of the buffer with that byte in its slot, and no fault or NoFrame
(R106). -/
theorem step_lastByte {s : State} {h b : Byte} {n : Count} (hm : s.mode = .payload) (hh : s.hdr = h) (hc : s.cnt = n)
    (hn : payloadLen h = some (n.toNat + 1)) (he : decodeEvent s.pins = .byte b) (h5 : n.toNat < 5) :
    ∃ t, step s = .next t ∧ t.outValid = true ∧ t.outHeader = h ∧ t.outNoframe = false ∧ t.faultCode = s.faultCode ∧
      t.outData = decodeByHeader h (s.pbuf.set n.toNat b h5) := by
  subst hh hc
  exact ⟨_, step_final hm hn he h5, rfl, rfl, rfl, rfl, rfl⟩

/-- Settles O40: the third byte is `cap`, and the lanes are those of the SensorSnapshot. -/
theorem sensorFrameShowsSixSlots : Obligations.SensorFrameShowsSixSlots := by
  intro s cap hm hh hc he
  obtain ⟨t, ht, hvalid, hheader, hnoframe, hcode, hdata⟩ := step_lastByte hm hh hc rfl he (by decide)
  have hsample : t.outData = decodeSensor s.pbuf[0] s.pbuf[1] cap := by simp [hdata, decodeByHeader]
  exact ⟨t, ht, hvalid, hheader, hnoframe, hcode, hsample ▸ lane_decodeSensor ..⟩

/-- Settles O41: the third byte is `servo`, and the lanes are those of the ActionSnapshot. -/
theorem actionFrameShowsFiveSlots : Obligations.ActionFrameShowsFiveSlots := by
  intro s servo hm hh hc he
  obtain ⟨t, ht, hvalid, hheader, hnoframe, hcode, hdata⟩ := step_lastByte hm hh hc rfl he (by decide)
  have hsample : t.outData = decodeAction s.pbuf[0] s.pbuf[1] servo := by simp [hdata, decodeByHeader]
  exact ⟨t, ht, hvalid, hheader, hnoframe, hcode, hsample ▸ lane_decodeAction ..⟩

/-- Settles O42: the fifth byte is the last of the voltage, and the fields are those of the PinReading. -/
theorem pinFrameShowsPinAndVoltage : Obligations.PinFrameShowsPinAndVoltage := by
  refine ⟨fun _ _ _ _ => rfl, fun s v3 hm hh hc he => ?_⟩
  obtain ⟨t, ht, hvalid, hheader, hnoframe, hcode, hdata⟩ := step_lastByte hm hh hc rfl he (by decide)
  have hsample : t.outData = decodePin s.pbuf[0] s.pbuf[1] s.pbuf[2] s.pbuf[3] v3 := by simp [hdata, decodeByHeader]
  obtain ⟨hpin, -, -, -, -, hzero⟩ := lane_decodePin s.pbuf[0] s.pbuf[1] s.pbuf[2] s.pbuf[3] v3
  rw [← hsample] at hpin hzero
  exact ⟨t, ht, hvalid, hheader, hnoframe, hcode, hpin, hsample ▸ pinVoltage_decodePin .., hzero⟩

end Sys2Proof.Machine
end

section
/-! R170 to R177: the rows that take a fault, the cause that a step takes, and the halted block until reset. -/

namespace Sys2Proof.Machine

/-- Settles O12: each of the four rows is the output clear of R101 and the fault entry of R176 with its own code. -/
theorem faultRowsEnterFaultMode : Obligations.FaultRowsEnterFaultMode := by
  rintro s i c (⟨rfl, rfl⟩ | ⟨rfl, rfl⟩ | ⟨rfl, rfl⟩ | ⟨rfl, rfl⟩) <;> rfl

/-! ### The events of R70 as pins -/

theorem decodeEvent_eq_reset_iff (p : Pins) : decodeEvent p = .reset ↔ p.rst = true := by
  unfold decodeEvent
  split_ifs <;> simp_all

theorem decodeEvent_eq_fault_iff (p : Pins) : decodeEvent p = .fault ↔ p.rst = false ∧ p.inFault = true := by
  unfold decodeEvent
  split_ifs <;> simp_all

theorem decodeEvent_eq_protocol_iff (p : Pins) :
    decodeEvent p = .protocol ↔
      p.rst = false ∧ p.inFault = false ∧ p.inTimeout = true ∧ p.inValid = true := by
  unfold decodeEvent
  split_ifs <;> simp_all

theorem decodeEvent_ne_reset_iff (p : Pins) : decodeEvent p ≠ .reset ↔ p.rst = false := by
  rw [ne_eq, decodeEvent_eq_reset_iff, Bool.not_eq_true]

/-! ### The cause of a fault (R175) -/

/-- The cause that a step outside FAULT mode takes, with its code. The check of R112 comes before the event, which
names at most one of the other two. -/
inductive FaultCause (s : State) : FaultCode → Prop
  /-- R112. -/
  | consistency : decodeEvent s.pins ≠ .reset → ¬ s.Consistent → FaultCause s .consistency
  /-- R110. -/
  | source : s.Consistent → decodeEvent s.pins = .fault → FaultCause s .source
  /-- R111. -/
  | protocol : s.Consistent → decodeEvent s.pins = .protocol → FaultCause s .protocol

/-- A step with a cause is its fault entry (R176). -/
theorem FaultCause.step {s : State} {c : FaultCode} (hm : s.mode ≠ .fault) (hcause : FaultCause s c) :
    step s = .next (s.consumePins.clearOutputs.raiseFault c) := by
  cases hcause with
  | consistency he hc => exact step_inconsistent he hm hc
  | source hc he => exact step_sourceFault hm hc he
  | protocol hc he => exact step_protocolFault hm hc he

/-- Only a cause leads into FAULT mode: every other row leaves the mode or goes on to HUNT or PAYLOAD. -/
theorem exists_faultCause_of_step {s t : State} (h : step s = .next t) :
    s.mode ≠ .fault → t.mode = .fault → ∃ c, FaultCause s c := by
  apply step_next_of_cases h
  apply step_cases
  case inconsistent => exact fun he _ hc _ _ => ⟨_, .consistency he hc⟩
  case sourceFault => exact fun _ hc he _ _ => ⟨_, .source hc he⟩
  case protocolFault => exact fun _ hc he _ _ => ⟨_, .protocol hc he⟩
  case absorb | idle | huntTimeout | huntNoise | capture =>
    intros
    exact absurd (by assumption) ‹s.mode ≠ .fault›
  case reset | huntHeader | truncate | final =>
    intros
    contradiction

/-- A step from outside FAULT mode into it is the fault entry of its cause. -/
theorem faultEntry_of_step {s t : State} (h : step s = .next t) (hm : s.mode ≠ .fault) (ht : t.mode = .fault) :
    ∃ c, FaultCause s c ∧ t = s.consumePins.clearOutputs.raiseFault c := by
  obtain ⟨c, hcause⟩ := exists_faultCause_of_step h hm ht
  exact ⟨c, hcause, Host.Outcome.next.inj (h.symm.trans (hcause.step hm))⟩

theorem step_mode_eq_fault_iff {s t : State} (h : step s = .next t) (hm : s.mode ≠ .fault) :
    t.mode = .fault ↔ ∃ c, FaultCause s c := by
  refine ⟨exists_faultCause_of_step h hm, fun ⟨c, hcause⟩ => ?_⟩
  apply step_next_of_cases h
  exact ⟨_, hcause.step hm, State.raiseFault_mode ..⟩

/-- When there is a cause, in terms of the state and the pins (R70, R175). -/
theorem exists_faultCause_iff (s : State) :
    (∃ c, FaultCause s c) ↔
      s.pins.rst = false ∧
        (¬ s.Consistent ∨ s.pins.inFault = true ∨ (s.pins.inTimeout = true ∧ s.pins.inValid = true)) := by
  constructor
  · rintro ⟨c, hcause⟩
    cases hcause with
    | consistency he hc => exact ⟨(decodeEvent_ne_reset_iff _).mp he, .inl hc⟩
    | source hc he =>
      obtain ⟨hrst, hfault⟩ := (decodeEvent_eq_fault_iff _).mp he
      exact ⟨hrst, .inr (.inl hfault)⟩
    | protocol hc he =>
      obtain ⟨hrst, -, hboth⟩ := (decodeEvent_eq_protocol_iff _).mp he
      exact ⟨hrst, .inr (.inr hboth)⟩
  · rintro ⟨hrst, hcause⟩
    by_cases hc : s.Consistent
    · cases hfault : s.pins.inFault with
      | true => exact ⟨_, .source hc ((decodeEvent_eq_fault_iff _).mpr ⟨hrst, hfault⟩)⟩
      | false =>
        have hboth : s.pins.inTimeout = true ∧ s.pins.inValid = true :=
          (hcause.resolve_left (not_not.mpr hc)).resolve_left (by simp [hfault])
        exact ⟨_, .protocol hc ((decodeEvent_eq_protocol_iff _).mpr ⟨hrst, hfault, hboth⟩)⟩
    · exact ⟨_, .consistency ((decodeEvent_ne_reset_iff _).mpr hrst) hc⟩

/-- Which of the causes it is, in the order of R175. -/
theorem FaultCause.priority {s : State} {c : FaultCode} (hcause : FaultCause s c) :
    (¬ s.Consistent → c = .consistency) ∧
      (s.Consistent → s.pins.inFault = true → c = .source) ∧
      (s.Consistent → s.pins.inFault = false → c = .protocol) := by
  cases hcause with
  | consistency he hc => exact ⟨fun _ => rfl, fun hc' => absurd hc' hc, fun hc' => absurd hc' hc⟩
  | source hc he =>
    obtain ⟨-, hfault⟩ := (decodeEvent_eq_fault_iff _).mp he
    exact ⟨fun hc' => absurd hc hc', fun _ _ => rfl, by simp [hfault]⟩
  | protocol hc he =>
    obtain ⟨-, hfault, -⟩ := (decodeEvent_eq_protocol_iff _).mp he
    exact ⟨fun hc' => absurd hc hc', by simp [hfault], fun _ _ => rfl⟩

/-- A step that ends in FAULT mode, by fault entry or by absorbing an event, shows nothing (R176, R102). -/
theorem outputs_clear_of_step_mode_fault {s t : State} (h : step s = .next t) (ht : t.mode = .fault) :
    t.outValid = false ∧ t.outHeader = 0x00 ∧ t.outData = 0 ∧ t.outNoframe = false := by
  revert ht
  apply step_next_of_cases h
  apply step_cases
  case huntTimeout => exact fun hm _ _ ht => by simp [hm] at ht
  case truncate | final =>
    intros
    contradiction
  all_goals
    intros
    exact ⟨rfl, rfl, rfl, rfl⟩

/-- Settles O47: RESET and FAULT mode have rows of their own before all others, and outside them a step that faults is
the fault entry of its one cause. -/
theorem faultPriority : Obligations.FaultPriority := by
  intro s t h
  refine ⟨fun hrst => ?_, fun hrst hm => ?_, fun hm => ⟨?_, fun ht => ?_⟩, outputs_clear_of_step_mode_fault h⟩
  · apply step_next_of_cases h
    exact ⟨_, step_reset ((decodeEvent_eq_reset_iff _).mpr hrst), rfl, rfl⟩
  · apply step_next_of_cases h
    exact ⟨_, step_absorb ((decodeEvent_ne_reset_iff _).mpr hrst) hm, hm, rfl⟩
  · exact (step_mode_eq_fault_iff h hm).trans (exists_faultCause_iff s)
  · obtain ⟨c, hcause, rfl⟩ := faultEntry_of_step h hm ht
    exact hcause.priority

/-! ### The halted block (R177) -/

/-- In FAULT mode any events but RESET give no result and leave every register but the outputs. -/
theorem runEvents_of_mode_fault {s : State} (hm : s.mode = .fault) {es : List Event} (hes : ∀ ev ∈ es, ev ≠ .reset) :
    s.runEvents es = ([], s.clearOutputs) := by
  induction es with
  | nil => rfl
  | cons ev es ih =>
    obtain ⟨hev, hes⟩ := List.forall_mem_cons.mp hes
    have hst := step_absorb (s := s.meets ev) (by simpa using hev) hm
    exact (runEvents_of_silent hst es).trans (ih hes)

/-- Settles O51: the run is that of its events, and all of them are absorbed. -/
theorem faultIsStickyUntilReset : Obligations.FaultIsStickyUntilReset := by
  intro s ps hm hrst
  have hes : ∀ ev ∈ ps.map decodeEvent, ev ≠ .reset :=
    List.forall_mem_map.mpr fun p hp => (decodeEvent_ne_reset_iff p).mpr (hrst p hp)
  have hrun := runEvents_of_mode_fault hm hes
  obtain ⟨t, ht, hregs⟩ := runSteps_feed ps s
  rw [hrun] at hregs
  refine ⟨by rw [results_feed, hrun], t, ht, ?_, ?_, ?_, ?_, ?_⟩
  · simpa [hm] using congrArg State.mode hregs
  · simpa using congrArg State.faultCode hregs
  · simpa using congrArg State.hdr hregs
  · simpa using congrArg State.cnt hregs
  · simpa using congrArg State.pbuf hregs

end Sys2Proof.Machine
end

section
/-! R200, R201 and R209: reset, alone and held, and a partial frame that waits. -/

namespace Sys2Proof.Machine

/-- Settles O10: the row does the register writes of R200 and no more. -/
theorem evResetLoadsResetValues : Obligations.EvResetLoadsResetValues := fun _ => rfl

/-! ### Reset (R200, R201) -/

/-- A reset step, in any mode and with any other pins, gives the state after reset. -/
theorem step_of_rst {s : State} (hrst : s.pins.rst = true) :
    step s = .next (State.resetWith s.hdr s.pbuf s.input.tail) :=
  step_reset ((decodeEvent_eq_reset_iff _).mpr hrst)

/-- Settles O27: the state after reset is in HUNT mode, where `hdr` and the buffer are stale. -/
theorem resetStep : Obligations.ResetStep := fun _ hrst =>
  ⟨step_of_rst hrst, fun n hdr pbuf => staleBytesNeverReachOutputs n (State.resetWith _ _ _) hdr pbuf rfl rfl⟩

/-- FAULT mode is left by RESET and absorbs every other event (R102, R177). -/
theorem leaves_fault_iff_rst {s t : State} (hm : s.mode = .fault) (h : step s = .next t) :
    t.mode ≠ .fault ↔ s.pins.rst = true := by
  apply step_next_of_cases h
  by_cases hrst : s.pins.rst = true
  · exact ⟨_, step_of_rst hrst, iff_of_true (by simp [State.resetWith]) hrst⟩
  · have he : decodeEvent s.pins ≠ .reset := mt (decodeEvent_eq_reset_iff _).mp hrst
    exact ⟨_, step_absorb he hm, iff_of_false (not_not.mpr hm) hrst⟩

/-- After a reset, holding `rst` only consumes the input. -/
theorem runSteps_resetWith_of_rst (hdr : Byte) (pbuf : Vector Byte 5) {ps : List Pins} (hps : ∀ p ∈ ps, p.rst = true) :
    runSteps ps.length (State.resetWith hdr pbuf ps) = .next (State.resetWith hdr pbuf []) := by
  induction ps with
  | nil => rfl
  | cons p ps ih =>
    obtain ⟨hp, hps⟩ := List.forall_mem_cons.mp hps
    have hst := step_of_rst (s := State.resetWith hdr pbuf (p :: ps)) hp
    exact (runSteps_succ_of_step _ hst).trans (ih hps)

/-- Settles O28: the reset step does not speak of the other pins, it alone leaves FAULT mode, and after the first one
the registers are those of a reset already. -/
theorem resetDominatesAndIsIdempotent : Obligations.ResetDominatesAndIsIdempotent := by
  refine ⟨fun s p q rest hp hq => ?_, fun s t hm h => leaves_fault_iff_rst hm h, fun s ps hne hps => ?_⟩
  · have hst := step_of_rst (s := s.feed (p :: rest)) hp
    exact hst.trans (step_of_rst (s := s.feed (q :: rest)) hq).symm
  · cases ps with
    | nil => contradiction
    | cons p ps =>
      obtain ⟨hp, hps⟩ := List.forall_mem_cons.mp hps
      have hst := step_of_rst (s := s.feed (p :: ps)) hp
      exact (runSteps_succ_of_step _ hst).trans (runSteps_resetWith_of_rst _ _ hps)

/-! ### The partial frame (R209) -/

/-- Idle steps are no events to a consistent block: they give no result and leave every register but the outputs. -/
theorem run_feed_idle {s : State} (hc : s.Consistent) {ps : List Pins} (hidle : ∀ p ∈ ps, decodeEvent p = .idle) :
    results ps.length (s.feed ps) = [] ∧
      ∃ t, runSteps ps.length (s.feed ps) = .next t ∧ t.clearOutputs = s.clearOutputs.feed [] := by
  have hev : eventsWithoutIdle ps = [] := by simpa [eventsWithoutIdle] using hidle
  have hrun := run_feed hc ps
  rwa [hev] at hrun

/-- Settles O52: only the outputs and the coming input differ after the idle steps. -/
theorem partialFrameWaitsWhileIdle : Obligations.PartialFrameWaitsWhileIdle := by
  intro s ps hm hc hidle
  obtain ⟨hres, t, hrun, hregs⟩ := run_feed_idle hc hidle
  refine ⟨hres, t, hrun, ?_, ?_, ?_, ?_, ?_⟩
  · simpa [hm] using congrArg State.mode hregs
  · simpa using congrArg State.hdr hregs
  · simpa using congrArg State.cnt hregs
  · simpa using congrArg State.pbuf hregs
  · simpa using congrArg State.faultCode hregs

end Sys2Proof.Machine
end
